-- ==== Sys2Proof/Word.lean ====
section
/-! DEFINITION. The word types of the block (spec/00_scope.md R8 to R10). -/

namespace Sys2Proof

/-- A command word or a response word (30_encoding.md R70, R80). -/
abbrev Word := BitVec 32

/-- A segment pattern: bit `s` is 1 iff segment `s` is lit, A = bit 0 (00_scope.md R10). -/
abbrev Pattern := BitVec 7

/-- A pulse mask, or the 16 bits of the shift register (10_state.md R27). -/
abbrev Mask := BitVec 16

/-- A segment index: A = 0, B = 1, ..., G = 6 (00_scope.md R10). -/
abbrev Seg := Fin 7

/-- The segments in the order every loop `for s in 0..6` visits them (00_scope.md R12). -/
def segments : List Seg := [0, 1, 2, 3, 4, 5, 6]

end Sys2Proof
end

