-- ==== Sys2Proof/Config.lean ====
section
/-! DEFINITION. The configuration record of spec/00_scope.md R7: what an instance fixes at construction.
The spec leaves no value free beside these parameters; the indeterminate optical states of the display are the
value `Unknown` of its own plant (45_display_plant.md R223), so there is no opaque constant here. -/

namespace Sys2Proof

/-- `SR_MAP`: the output bit of each segment's set and clear line (42_serial_expander.md R151). -/
structure SrMap where
  setPos : Vector (Fin 16) 7
  clrPos : Vector (Fin 16) 7
  deriving DecidableEq, Repr

/-- `BACKEND`: direct lines, or the serial expander with its map (00_scope.md R3). -/
inductive Backend where
  | direct
  | serial (map : SrMap)
  deriving DecidableEq, Repr

/-- `SELECTOR`: one enable line per digit, or `K` address lines and one enable (00_scope.md R4). -/
inductive Selector where
  | oneHot
  | binary (k : Nat)
  deriving DecidableEq, Repr

/-- The configuration record (00_scope.md R7). It is fixed at construction and no command changes it (R21). -/
structure Config where
  /-- `N`, the number of digit positions. -/
  digits      : Nat
  backend     : Backend
  selector    : Selector
  /-- `ENCODE_TABLE`, the pattern of each digit value. -/
  encodeTable : Vector Pattern 10
  /-- `HOLD_MS`, 0..65535. -/
  holdMs      : BitVec 16
  /-- `REFRESH_MS`, any natural number. -/
  refreshMs   : Nat
  /-- `T_FLIP_MS`, a property of the display, not of the block. -/
  tFlipMs     : Nat
  deriving DecidableEq, Repr

/-- The default of `ENCODE_TABLE` (41_digit_controller.md R120). Entry 7 is the source's; the others are the
spec's general-knowledge default. PRESUMED, unsafe for a claim that names another digit: log entry 5. -/
def Config.standardTable : Vector Pattern 10 :=
  #v[0x3F#7, 0x06#7, 0x5B#7, 0x4F#7, 0x66#7, 0x6D#7, 0x7D#7, 0x07#7, 0x7F#7, 0x6F#7]

/-- `TEST_MAP` (42_serial_expander.md R159): used by tests only, no rule depends on it. -/
def Config.testMap : SrMap where
  setPos := #v[13, 9, 5, 1, 0, 4, 8]
  clrPos := #v[15, 11, 7, 3, 2, 6, 10]

/-- The instance of `State.reset`: the example values of 95_test_vectors.md, in the configuration of its
scenario L1-7. DESIGN CHOICE, unsafe for a claim about `State.reset` itself: log entry 1. -/
def Config.standard : Config where
  digits      := 3
  backend     := .direct
  selector    := .oneHot
  encodeTable := Config.standardTable
  holdMs      := 100#16
  refreshMs   := 10
  tFlipMs     := 50

end Sys2Proof
end

