-- ==== Sys2Proof/Machine/Event.lean ====
section
/-! DEFINITION. The output lines, the events of the trace, and the event sequences of the internal operations
(spec/10_state.md R25 to R28, R33; 40 R101, R102; 42 R155; 43 R181, R182; 70 R271). -/

namespace Sys2Proof.Machine

/-- An owned output line (10_state.md R25, R26, R28). Distinct names are distinct lines (R40). -/
inductive Line where
  /-- `SET[s]`, DIRECT. -/
  | setL (s : Seg)
  /-- `CLR[s]`, DIRECT. -/
  | clrL (s : Seg)
  /-- `SER_DATA`, SERIAL. -/
  | serData
  /-- `SER_CLK`, SERIAL. -/
  | serClk
  /-- `SER_LATCH`, SERIAL. -/
  | serLatch
  /-- `EN[d]`, ONE_HOT. -/
  | en (d : Nat)
  /-- `ADDR[j]`, BINARY. -/
  | addr (j : Nat)
  /-- The shared `EN`, BINARY. -/
  | enable
  deriving DecidableEq, Repr

/-- An event of the trace (10_state.md R33). -/
inductive Event where
  /-- `Write(L, b)`: owned line `L` set to level `b`. -/
  | write (l : Line) (b : Bool)
  /-- `Wait(ms)`. -/
  | wait (ms : Nat)
  deriving DecidableEq, Repr

/-- `drive(s, on)` (40_segment.md R101): the line that must go low is written first. -/
def driveEvents (s : Seg) (on : Bool) : List Event :=
  if on then [.write (.clrL s) false, .write (.setL s) true]
  else [.write (.setL s) false, .write (.clrL s) true]

/-- `release(s)` (40_segment.md R102). -/
def releaseEvents (s : Seg) : List Event :=
  [.write (.setL s) false, .write (.clrL s) false]

/-- The 14 writes of `update_direct` (41_digit_controller.md R125): segment `s` is driven to `p[s]` where
`diff[s] = 1` and released elsewhere. -/
def updateEvents (diff p : Pattern) : List Event :=
  segments.flatMap fun s => if diff[s] then driveEvents s p[s] else releaseEvents s

/-- The 14 writes of `clear_pins_direct` (41_digit_controller.md R128). -/
def clearEvents : List Event := segments.flatMap releaseEvents

/-- The clocking of one bit into the shift register (42_serial_expander.md R155). -/
def clockEvents (b : Bool) : List Event :=
  [.write .serData b, .write .serClk true, .write .serClk false]

/-- The bit positions of a mask in the order they are shifted out: 15 down to 0 (42_serial_expander.md R155). -/
def shiftOrder : List Nat := [15, 14, 13, 12, 11, 10, 9, 8, 7, 6, 5, 4, 3, 2, 1, 0]

/-- `shift_out_and_latch(w)` (42_serial_expander.md R155). -/
def shiftEvents (w : Mask) : List Event :=
  shiftOrder.flatMap (fun i => clockEvents (w.getLsbD i)) ++ [.write .serLatch true, .write .serLatch false]

/-- `strobe_one_hot(d, ms)` (43_selector.md R181). -/
def strobeOneHotEvents (d ms : Nat) : List Event :=
  [.write (.en d) true, .wait ms, .write (.en d) false]

/-- `strobe_binary(d, ms)` (43_selector.md R182): every address line, then the enable. -/
def strobeBinaryEvents (k d ms : Nat) : List Event :=
  (List.range k).map (fun j => .write (.addr j) (d.testBit j)) ++
    [.write .enable true, .wait ms, .write .enable false]

/-- The events of a strobe of selector index `d` in this configuration (43_selector.md R180). -/
def strobeEvents (c : Config) (d ms : Nat) : List Event :=
  match c.selector with
  | .oneHot   => strobeOneHotEvents d ms
  | .binary k => strobeBinaryEvents k d ms

/-- The selector's part of the reset sequence (70_reset_and_hazards.md R271). -/
def resetSelectorEvents : Selector → Nat → List Event
  | .oneHot, n   => (List.range n).map fun d => .write (.en d) false
  | .binary k, _ => .write .enable false :: (List.range k).map fun j => .write (.addr j) false

/-- The back end's part of the reset sequence (70_reset_and_hazards.md R271). -/
def resetBackendEvents : Backend → List Event
  | .direct   => clearEvents
  | .serial _ => [.write .serData false, .write .serClk false, .write .serLatch false] ++ shiftEvents 0#16

/-- The line writes of the reset sequence, enables first (70_reset_and_hazards.md R271). -/
def resetEvents (c : Config) : List Event :=
  resetSelectorEvents c.selector c.digits ++ resetBackendEvents c.backend

end Sys2Proof.Machine
end

