-- ==== Sys2Proof/Machine/State.lean ====
section
/-! DEFINITION. The state of the block (spec/10_state.md), its reset value (R35), and the reasons a step can stop. -/

namespace Sys2Proof.Machine

/-- The optical state of one segment of the display (10_state.md R34). -/
inductive Optical where
  | off
  | on
  /-- Indeterminate: no claim may take it for `off` or `on` (45_display_plant.md R223). -/
  | unknown
  deriving DecidableEq, Repr

/-- The levels of the output lines (10_state.md R25, R26, R28). A line the configuration does not own stays at
`0`, and an absent row of lines is the empty list. DESIGN CHOICE, safe: log entry 4. -/
structure Lines where
  /-- `SET[6:0]`: bit `s` is line `SET[s]`. -/
  setL     : Pattern
  /-- `CLR[6:0]`: bit `s` is line `CLR[s]`. -/
  clrL     : Pattern
  serData  : Bool
  serClk   : Bool
  serLatch : Bool
  /-- `EN[0..N-1]` of the one-hot selector. -/
  en       : List Bool
  /-- `ADDR[0..K-1]` of the binary selector. -/
  addr     : List Bool
  /-- The shared `EN` of the binary selector. -/
  enable   : Bool
  deriving DecidableEq, Repr

/-- The external shift register (10_state.md R27). -/
structure ShiftReg where
  stage : Mask
  q     : Mask
  deriving DecidableEq, Repr

/-- The state record of 10_state.md, the two ports of R36, and the configuration that R21 makes an argument of
the step. -/
structure State where
  /-- The construction constants (00_scope.md R7). No step changes them. DESIGN CHOICE, safe: log entry 1. -/
  cfg       : Config
  /-- `slot[d]`, one per digit index (R22). -/
  slots     : List (Option Pattern)
  lines     : Lines
  sr        : ShiftReg
  /-- `plant[d][s]` (R34). -/
  plant     : List (Vector Optical 7)
  /-- The events emitted so far, oldest first (R33). -/
  trace     : List Event
  /-- The command port: the words the host has presented and the block has not performed, next first (R36, R37).
  DESIGN CHOICE, safe: log entry 2. -/
  commands  : List Word
  /-- The response port: the words returned so far, oldest first (R36). DESIGN CHOICE, safe: log entry 3. -/
  responses : List Word
  deriving DecidableEq, Repr

/-- Why a step could stop with a fault. There is no such reason on this hardware: an error is a response to the
host (60_exceptions.md R240, R246) and "There is no fatal error class" (R247). Nobody raises a fault; safe. -/
inductive Fault where
  deriving DecidableEq, Repr

/-- Why a command could be refused. -/
inductive Refusal where
  /-- The model gives the command no meaning. No arm of `exec` raises it: every command is modelled. Safe. -/
  | notModelled (mnemonic : String)
  deriving DecidableEq, Repr

/-- Every line of the configuration at 0 (10_state.md R35). -/
def Lines.low (c : Config) : Lines where
  setL     := 0#7
  clrL     := 0#7
  serData  := false
  serClk   := false
  serLatch := false
  en       := match c.selector with
              | .oneHot   => List.replicate c.digits false
              | .binary _ => []
  addr     := match c.selector with
              | .oneHot   => []
              | .binary k => List.replicate k false
  enable   := false

/-- The state after reset of an instance with configuration `c` (10_state.md R35, 70_reset_and_hazards.md R271, R272). -/
def State.resetOf (c : Config) : State where
  cfg       := c
  slots     := List.replicate c.digits none
  lines     := Lines.low c
  sr        := ⟨0#16, 0#16⟩
  plant     := List.replicate c.digits (Vector.replicate 7 .unknown)
  trace     := resetEvents c
  commands  := []
  responses := []

/-- The machine right after reset, in the configuration of 95_test_vectors.md L1-7. Which configuration it is,
is a DESIGN CHOICE, unsafe for a claim about this one state: log entry 1. -/
def State.reset : State := State.resetOf Config.standard

end Sys2Proof.Machine
end

