-- ==== Sys2Proof/Machine/Flags.lean ====
section
/-! DEFINITION. The diff of the state-diff engine, the `changed` flag, and the response word
(spec/30_encoding.md R80 to R82; 41 R125; 42 R153). -/

namespace Sys2Proof.Machine

/-- `D`: the segments to drive, all seven for an `Unwritten` slot (41_digit_controller.md R125, 42 R153). -/
def diffOf (old : Option Pattern) (p : Pattern) : Pattern :=
  match old with
  | none   => 0x7F#7
  | some q => q ^^^ p

/-- `changed`: at least one segment is driven (41_digit_controller.md R125). -/
def changedOf (old : Option Pattern) (p : Pattern) : Bool := diffOf old p != 0#7

/-- The error kinds of a response (60_exceptions.md R240), and OK. -/
inductive Err where
  | ok
  | outOfRange
  | doesNotExist
  | illegal
  deriving DecidableEq, Repr

/-- The error codes (30_encoding.md R81). -/
def errCode : Err → BitVec 4
  | .ok           => 0x0#4
  | .outOfRange   => 0x1#4
  | .doesNotExist => 0x2#4
  | .illegal      => 0xF#4

/-- The response word `{DATA, RSV = 0, CHANGED, ERR}` (30_encoding.md R80). -/
def responseWord (e : Err) (changed : Bool) (data : Mask) : Word :=
  data ++ 0#11 ++ BitVec.ofBool changed ++ errCode e

end Sys2Proof.Machine
end

