-- ==== Sys2Proof/Syntax.lean ====
section
/-! DEFINITION. The commands of the block: one constructor per row of spec/opcode_table.json. -/

namespace Sys2Proof

/-- A value code (30_encoding.md R74): the blank sentinel, or a number of 15 bits. A number above 9 is
expressible, and raises `OutOfRange` when performed. -/
inductive Value where
  | blank
  | number (n : Nat)
  deriving DecidableEq, Repr

/-- The six commands (30_encoding.md R71). The pseudo-instruction `BLANK d` is `displayNumber d .blank` (R84). -/
inductive Instr where
  /-- `ENCODE v` (41_digit_controller.md R123). -/
  | encode (v : Value)
  /-- `UPDATE d, p` (41_digit_controller.md R124). -/
  | update (d : Nat) (p : Pattern)
  /-- `DISPLAY_NUMBER d, v` (41_digit_controller.md R126). -/
  | displayNumber (d : Nat) (v : Value)
  /-- `CLEAR_PINS` (41_digit_controller.md R127). -/
  | clearPins
  /-- `STROBE d, ms` (43_selector.md R180). -/
  | strobe (d : Nat) (ms : Nat)
  /-- `RENDER n` (44_render.md R200). -/
  | render (n : Nat)
  deriving DecidableEq, Repr

end Sys2Proof
end

