-- ==== Sys2Proof/Machine/Operands.lean ====
section
/-! DEFINITION. The operand forms of the commands: value codes, the encode table, decimal digits, and the bounds of
the index spaces (spec/30_encoding.md R74; 41 R120 to R122; 44 R201, R202; 20_memory.md R50). -/

namespace Sys2Proof.Machine

/-- A digit value: `none` is blank (00_scope.md R11). -/
abbrev Digit := Option (Fin 10)

/-- The digit value of a value code, or `none` for `OutOfRangeValue` (30_encoding.md R74). -/
def digitOf : Value → Option Digit
  | .blank    => some none
  | .number n => if h : n < 10 then some (some ⟨n, h⟩) else none

/-- `encode` of a digit value (41_digit_controller.md R120, R121). -/
def encodeDigit (c : Config) : Digit → Pattern
  | none   => 0#7
  | some n => c.encodeTable[n]

/-- `digit_at(n, pos)` (44_render.md R201). -/
def digitAt (n pos : Nat) : Digit :=
  if pos = 0 then some ⟨n % 10, Nat.mod_lt n (by decide)⟩
  else if n / 10 ^ pos = 0 then none
  else some ⟨n / 10 ^ pos % 10, Nat.mod_lt _ (by decide)⟩

/-- `d` is an index of the digit-slot space (20_memory.md R50). -/
def slotExists (c : Config) (d : Nat) : Bool := decide (d < c.digits)

/-- The size of the selector index space: `N` or `2^K` (20_memory.md R50, 43_selector.md R180). -/
def selectorCount (c : Config) : Nat :=
  match c.selector with
  | .oneHot   => c.digits
  | .binary k => 2 ^ k

/-- `d` is an index of the selector index space (43_selector.md R180). -/
def selectorExists (c : Config) (d : Nat) : Bool := decide (d < selectorCount c)

/-- The digits of `n` fit the unit's positions (44_render.md R202). -/
def renderFits (c : Config) (n : Nat) : Bool := decide (n < 10 ^ c.digits)

end Sys2Proof.Machine
end

