-- ==== Sys2Proof/Machine/Ops.lean ====
section
/-! DEFINITION. The primitives of spec/00_scope.md R12: slots, line writes with what the shift register does at
their edges (42_serial_expander.md R156), waits, responses and errors. -/

namespace Sys2Proof.Machine

/-- What every meaning answers. -/
abbrev Result := Host.Outcome State Fault Refusal

/-- `v` with bit `i` set to `b`; nothing changes where `i` is no bit of `v`. -/
def setBit {w : Nat} (v : BitVec w) (i : Nat) (b : Bool) : BitVec w :=
  if b then v ||| BitVec.twoPow w i else v &&& ~~~(BitVec.twoPow w i)

/-- `slot[d]` (10_state.md R22). -/
def slotAt (s : State) (d : Nat) : Option Pattern := s.slots[d]?.getD none

/-- `slot[d] <- Some(p)`: the only write of a slot after reset (10_state.md R23). -/
def writeSlot (d : Nat) (p : Pattern) (s : State) : State := { s with slots := s.slots.set d (some p) }

/-- `line(L)` (00_scope.md R12); a line the configuration does not own reads 0. -/
def lineLevel (l : Lines) : Line → Bool
  | .setL s   => l.setL[s]
  | .clrL s   => l.clrL[s]
  | .serData  => l.serData
  | .serClk   => l.serClk
  | .serLatch => l.serLatch
  | .en d     => l.en[d]?.getD false
  | .addr j   => l.addr[j]?.getD false
  | .enable   => l.enable

/-- The levels after line `L` is set to `b` (40_segment.md R104: every write takes effect). -/
def putLine (l : Lines) (line : Line) (b : Bool) : Lines :=
  match line with
  | .setL s   => { l with setL := setBit l.setL s.val b }
  | .clrL s   => { l with clrL := setBit l.clrL s.val b }
  | .serData  => { l with serData := b }
  | .serClk   => { l with serClk := b }
  | .serLatch => { l with serLatch := b }
  | .en d     => { l with en := l.en.set d b }
  | .addr j   => { l with addr := l.addr.set j b }
  | .enable   => { l with enable := b }

/-- The shift register at a line write, from the levels before it (42_serial_expander.md R156): a rising `SER_CLK`
shifts `SER_DATA` in, a rising `SER_LATCH` copies the stages to the outputs, nothing else changes it. -/
def shiftRegAt (l : Lines) (r : ShiftReg) (line : Line) (b : Bool) : ShiftReg :=
  match line with
  | .serClk   => if b && !l.serClk then { r with stage := r.stage.extractLsb' 0 15 ++ BitVec.ofBool l.serData } else r
  | .serLatch => if b && !l.serLatch then { r with q := r.stage } else r
  | _         => r

/-- One event happens: a line write reaches its line and the shift register, a wait reaches nothing; the trace
records either (00_scope.md R12, 60_exceptions.md R251). -/
def emit (s : State) : Event → State
  | .write l b => { s with lines := putLine s.lines l b, sr := shiftRegAt s.lines s.sr l b,
                           trace := s.trace ++ [.write l b] }
  | .wait ms   => { s with trace := s.trace ++ [.wait ms] }

/-- Events happen in the order listed (20_memory.md R59). -/
def perform (es : List Event) (s : State) : State := es.foldl emit s

/-- `respond(err, changed, data)` (30_encoding.md R80): the response port takes the word. -/
def respond (e : Err) (changed : Bool) (data : Mask) (s : State) : State :=
  { s with responses := s.responses ++ [responseWord e changed data] }

/-- `raise Err(kind)` (00_scope.md R12, 60_exceptions.md R244, R246): what taking an error is on this hardware. The
response carries the kind with `CHANGED` and `DATA` 0, and nothing else of the state changes. -/
def raise (e : Err) (s : State) : State := respond e false 0#16 s

/-- A value for each segment, as a vector. -/
def tabulate {α : Type} (f : Seg → α) : Vector α 7 := #v[f 0, f 1, f 2, f 3, f 4, f 5, f 6]

end Sys2Proof.Machine
end

