-- ==== Sys2Proof/Machine/SerialExpander.lean ====
section
/-! DEFINITION. The serial back end: pulse mask and serialisation (spec/42_serial_expander.md R151 to R158). -/

namespace Sys2Proof.Machine

/-- `pulse_mask(old, p)` (R153): for every segment to drive, the bit of its set line or of its clear line. -/
def pulseMask (m : SrMap) (old : Option Pattern) (p : Pattern) : Mask :=
  segments.foldl (fun mask s =>
    if (diffOf old p)[s] then
      if p[s] then setBit mask m.setPos[s].val true else setBit mask m.clrPos[s].val true
    else mask) 0#16

/-- `shift_out_and_latch(w)` (R155). -/
def shiftOutAndLatch (w : Mask) (s : State) : State := perform (shiftEvents w) s

/-- `update_serial(d, p)` (R154): the mask is shifted out and latched, zero included, and the slot written. -/
def updateSerial (m : SrMap) (d : Nat) (p : Pattern) (s : State) : Bool × Mask × State :=
  let mask := pulseMask m (slotAt s d) p
  (mask != 0#16, mask, writeSlot d p (shiftOutAndLatch mask s))

/-- `clear_pins_serial` (R157). -/
def clearPinsSerial (s : State) : State := shiftOutAndLatch 0#16 s

end Sys2Proof.Machine
end

