-- ==== Sys2Proof/Machine/DigitController.lean ====
section
/-! DEFINITION. The digit controller and its direct back end (spec/41_digit_controller.md R120 to R132): the commands
`ENCODE`, `UPDATE`, `DISPLAY_NUMBER` and `CLEAR_PINS`. -/

namespace Sys2Proof.Machine

/-- `update_direct(d, p)` (R125). -/
def updateDirect (d : Nat) (p : Pattern) (s : State) : Bool × State :=
  let old := slotAt s d
  (changedOf old p, writeSlot d p (perform (updateEvents (diffOf old p) p) s))

/-- `clear_pins_direct` (R128). -/
def clearPinsDirect (s : State) : State := perform clearEvents s

/-- The update of slot `d` by whichever back end is present (R124): `changed`, the response's `DATA`
(30_encoding.md R82: the mask, or 0 on the direct back end), and the state after. -/
def updateSlot (d : Nat) (p : Pattern) (s : State) : Bool × Mask × State :=
  match s.cfg.backend with
  | .direct   => let r := updateDirect d p s
                 (r.1, 0#16, r.2)
  | .serial m => updateSerial m d p s

/-- `clear_pins()` by whichever back end is present (R127). -/
def releaseAll (s : State) : State :=
  match s.cfg.backend with
  | .direct   => clearPinsDirect s
  | .serial _ => clearPinsSerial s

/-- The body of `UPDATE` after its bound check (R124), shared with `DISPLAY_NUMBER` (R126). -/
def updateAndRespond (d : Nat) (p : Pattern) (s : State) : State :=
  let r := updateSlot d p s
  respond .ok r.1 r.2.1 r.2.2

/-- `ENCODE v` (R123). -/
def execEncode (v : Value) (s : State) : Result :=
  match digitOf v with
  | none   => .next (raise .outOfRange s)
  | some n => .next (respond .ok false ((encodeDigit s.cfg n).setWidth 16) s)

/-- `UPDATE d, p` (R124). -/
def execUpdate (d : Nat) (p : Pattern) (s : State) : Result :=
  if slotExists s.cfg d then .next (updateAndRespond d p s) else .next (raise .doesNotExist s)

/-- `DISPLAY_NUMBER d, v` (R126): `encode` first, so `OutOfRange` comes before `DoesNotExist` (60_exceptions.md R245). -/
def execDisplayNumber (d : Nat) (v : Value) (s : State) : Result :=
  match digitOf v with
  | none   => .next (raise .outOfRange s)
  | some n =>
    if slotExists s.cfg d then .next (updateAndRespond d (encodeDigit s.cfg n) s)
    else .next (raise .doesNotExist s)

/-- `CLEAR_PINS` (R127): no slot changes. -/
def execClearPins (s : State) : Result := .next (respond .ok false 0#16 (releaseAll s))

end Sys2Proof.Machine
end

