-- ==== Sys2Proof/Machine/Plant.lean ====
section
/-! DEFINITION. The driven display (spec/45_display_plant.md R220 to R226). -/

namespace Sys2Proof.Machine

/-- The coil drive `(ds, dc)` of a segment (R221). -/
def coilDrive (s : State) (k : Seg) : Bool × Bool :=
  match s.cfg.backend with
  | .direct   => (s.lines.setL[k], s.lines.clrL[k])
  | .serial m => (s.sr.q[m.setPos[k]], s.sr.q[m.clrPos[k]])

/-- What a strobe with coil drive `(ds, dc)` makes of a segment; `held` says the hold lasted at least the flip
time (R222, R223). -/
def flipSegment (drive : Bool × Bool) (held : Bool) (old : Optical) : Optical :=
  match drive with
  | (false, false) => old
  | (true, false)  => if held then .on else .unknown
  | (false, true)  => if held then .off else .unknown
  | (true, true)   => .unknown

/-- `plant[d][k]`; `Unknown` where no digit is wired. -/
def plantAt (s : State) (d : Nat) (k : Seg) : Optical :=
  match s.plant[d]? with
  | some row => row[k]
  | none     => .unknown

/-- The effect on the display of a strobe of index `d` held for `ms` (R222). An index at or above `N` enables no
wired digit (R226). -/
def strobePlant (d ms : Nat) (s : State) : State :=
  if d < s.cfg.digits then
    { s with plant := s.plant.set d (tabulate fun k =>
        flipSegment (coilDrive s k) (decide (s.cfg.tFlipMs ≤ ms)) (plantAt s d k)) }
  else s

end Sys2Proof.Machine
end

