-- ==== Sys2Proof/Machine/DigitSelector.lean ====
section
/-! DEFINITION. The digit selector and the command `STROBE` (spec/43_selector.md R180 to R185). -/

namespace Sys2Proof.Machine

/-- `strobe_one_hot(d, ms)` or `strobe_binary(d, ms)` (R181, R182), and at its completion the display's reaction
(45_display_plant.md R222). -/
def strobe (d ms : Nat) (s : State) : State := strobePlant d ms (perform (strobeEvents s.cfg d ms) s)

/-- `STROBE d, ms` (R180). -/
def execStrobe (d ms : Nat) (s : State) : Result :=
  if selectorExists s.cfg d then .next (respond .ok false 0#16 (strobe d ms s))
  else .next (raise .doesNotExist s)

end Sys2Proof.Machine
end

