-- ==== Sys2Proof/Machine/Render.lean ====
section
/-! DEFINITION. The render pass and the command `RENDER` (spec/44_render.md R200 to R206). -/

namespace Sys2Proof.Machine

/-- A pass under way: the state, the positions strobed so far (bit `pos` for `pos` below 16, 30_encoding.md R82),
and whether any was. The position counter lives only in the pass (10_state.md R29). -/
structure Pass where
  state   : State
  strobed : Mask
  any     : Bool
  deriving DecidableEq, Repr

/-- One position of the pass: update its slot, and strobe it for `HOLD_MS` if that changed (R200, R203). -/
def renderPosition (n : Nat) (a : Pass) (pos : Nat) : Pass :=
  let r := updateSlot pos (encodeDigit a.state.cfg (digitAt n pos)) a.state
  if r.1 then ⟨strobe pos r.2.2.cfg.holdMs.toNat r.2.2, setBit a.strobed pos true, true⟩
  else { a with state := r.2.2 }

/-- All positions `0 .. N-1` in ascending order (R203). -/
def renderPositions (n : Nat) (s : State) : Pass :=
  (List.range s.cfg.digits).foldl (renderPosition n) ⟨s, 0#16, false⟩

/-- The pass after its range check: the positions, the final clear, the refresh wait, the response (R200). -/
def renderPass (n : Nat) (s : State) : State :=
  let a := renderPositions n s
  let t := releaseAll a.state
  respond .ok a.any a.strobed (perform [.wait t.cfg.refreshMs] t)

/-- `RENDER n` (R200, R202). -/
def execRender (n : Nat) (s : State) : Result :=
  if renderFits s.cfg n then .next (renderPass n s) else .next (raise .outOfRange s)

end Sys2Proof.Machine
end

