-- ==== Sys2Proof/Machine/Dispatch.lean ====
section
/-! DEFINITION. One arm per command: a direct call of its meaning. -/

namespace Sys2Proof.Machine

def exec (i : Instr) (s : State) : Host.Outcome State Fault Refusal :=
  match i with
  | .encode v => Sys2Proof.Machine.execEncode v s
  | .update d p => Sys2Proof.Machine.execUpdate d p s
  | .displayNumber d v => Sys2Proof.Machine.execDisplayNumber d v s
  | .clearPins => Sys2Proof.Machine.execClearPins s
  | .strobe d ms => Sys2Proof.Machine.execStrobe d ms s
  | .render n => Sys2Proof.Machine.execRender n s

end Sys2Proof.Machine
end

