-- ==== Sys2Proof/WellFormed.lean ====
section
/-! DEFINITION. Which commands have a word: every operand fits its field (spec/30_encoding.md R72, R74 to R77, R84). -/

namespace Sys2Proof

/-- A value code holds `BLANK` or a number 0..32767 (R74). -/
def Value.wellFormed : Value → Bool
  | .blank    => true
  | .number n => decide (n < 32768)

/-- The digit index is 0..255 (R72), the hold time 0..65535 (R76), the render value 0..65535 (R77). -/
def Instr.wellFormed : Instr → Bool
  | .encode v          => v.wellFormed
  | .update d _        => decide (d < 256)
  | .displayNumber d v => decide (d < 256) && v.wellFormed
  | .clearPins         => true
  | .strobe d ms       => decide (d < 256) && decide (ms < 65536)
  | .render n          => decide (n < 65536)

end Sys2Proof
end

