-- ==== Sys2Proof/Decode.lean ====
section
/-! DEFINITION. The decoder (spec/30_encoding.md R70 to R79, R85), total on every 32-bit word, and the encoder (R84). -/

namespace Sys2Proof

/-- Why a word is illegal (R79): the field of R78 that breaks the rule. -/
inductive Illegal where
  /-- `OP` is 0x0 or 0x7..0xF (R71). -/
  | opcode
  /-- `RSV` is not 0 (R73). -/
  | reserved
  /-- `DIGIT` is not 0 in a command without a digit (R72). -/
  | digit
  /-- A must-be-zero bit of `OPND` is set (R75, R78). -/
  | operand
  /-- `BLANK` is set together with a bit of `NUM` (R74). -/
  | blank
  deriving DecidableEq, Repr

/-- The decoder's answer: a command, or the reason the word is illegal. -/
inductive Decoded where
  | command (i : Instr)
  | illegal (why : Illegal)
  deriving DecidableEq, Repr

/-- `OP`, bits 31:28 (R70). -/
def opField (w : Word) : BitVec 4 := w.extractLsb' 28 4
/-- `DIGIT`, bits 27:20 (R70). -/
def digitField (w : Word) : BitVec 8 := w.extractLsb' 20 8
/-- `RSV`, bits 19:16 (R70). -/
def rsvField (w : Word) : BitVec 4 := w.extractLsb' 16 4
/-- `OPND`, bits 15:0 (R70). -/
def opndField (w : Word) : BitVec 16 := w.extractLsb' 0 16

/-- `decode_value` (R74) before the range test: `none` is the pseudocode's `Illegal`. -/
def decodeValue (x : BitVec 16) : Option Value :=
  if x.getLsbD 15 then
    if x.extractLsb' 0 15 = 0#15 then some .blank else none
  else some (.number (x.extractLsb' 0 15).toNat)

/-- A command with a value code, or the verdict that the code is illegal (R74). -/
def withValue (x : BitVec 16) (k : Value → Instr) : Decoded :=
  match decodeValue x with
  | some v => .command (k v)
  | none   => .illegal .blank

/-- The decoder (R85). It reads no state. -/
def decode (w : Word) : Decoded :=
  if rsvField w ≠ 0#4 then .illegal .reserved
  else match (opField w).toNat with
  | 1 => if digitField w ≠ 0#8 then .illegal .digit else withValue (opndField w) .encode
  | 2 => if (opndField w).extractLsb' 7 9 ≠ 0#9 then .illegal .operand
         else .command (.update (digitField w).toNat ((opndField w).extractLsb' 0 7))
  | 3 => withValue (opndField w) (.displayNumber (digitField w).toNat)
  | 4 => if digitField w ≠ 0#8 then .illegal .digit
         else if opndField w ≠ 0#16 then .illegal .operand else .command .clearPins
  | 5 => .command (.strobe (digitField w).toNat (opndField w).toNat)
  | 6 => if digitField w ≠ 0#8 then .illegal .digit else .command (.render (opndField w).toNat)
  | _ => .illegal .opcode

/-- `{OP, DIGIT, RSV = 0, OPND}` (R70, R84). -/
def packWord (op : BitVec 4) (d : Nat) (x : BitVec 16) : Word :=
  op ++ BitVec.ofNat 8 d ++ 0#4 ++ x

/-- `VAL(v)` (R84). -/
def valueCode : Value → BitVec 16
  | .blank    => 0x8000#16
  | .number n => BitVec.ofNat 16 n

/-- The word of a well-formed command (R84). -/
def encode : Instr → Word
  | .encode v          => packWord 1#4 0 (valueCode v)
  | .update d p        => packWord 2#4 d (p.setWidth 16)
  | .displayNumber d v => packWord 3#4 d (valueCode v)
  | .clearPins         => packWord 4#4 0 0#16
  | .strobe d ms       => packWord 5#4 d (BitVec.ofNat 16 ms)
  | .render n          => packWord 6#4 0 (BitVec.ofNat 16 n)

/-- The low `nbits` bits of `w` as a command word, every bit above them 0. Commands are one whole 32-bit word on
the command port (R70), so there is no byte order to lay out (20_memory.md R52). -/
def tableWord (nbits w : Nat) : Word := BitVec.ofNat 32 (w % 2 ^ nbits)

/-- The command the decoder reads from a table word, `none` where it calls the word illegal. -/
def decodeTableWord (nbits w : Nat) : Option Instr :=
  match decode (tableWord nbits w) with
  | .command i => some i
  | .illegal _ => none

/-! Words written out from the encoding (R84; 95_test_vectors.md), one for each constructor. -/

theorem decode_word_encode : decode 0x10000007#32 = .command (.encode (.number 7)) := by decide
theorem decode_word_update : decode 0x2020004F#32 = .command (.update 2 0x4F#7) := by decide
theorem decode_word_displayNumber : decode 0x30108000#32 = .command (.displayNumber 1 .blank) := by decide
theorem decode_word_clearPins : decode 0x40000000#32 = .command .clearPins := by decide
theorem decode_word_strobe : decode 0x5FF0FFFF#32 = .command (.strobe 255 65535) := by decide
theorem decode_word_render : decode 0x600003E7#32 = .command (.render 999) := by decide

end Sys2Proof
end

