-- ==== Sys2Proof/Machine/Port.lean ====
section
/-! DEFINITION. The command port (spec/10_state.md R36, R37; 30_encoding.md R79; 60_exceptions.md R243). -/

namespace Sys2Proof.Machine

/-- The port once its next word has been taken (20_memory.md R62: a word is consumed when it is performed). -/
def takeCommand (rest : List Word) (s : State) : State := { s with commands := rest }

/-- An illegal word is not performed: it is answered with `ERR = 0xF` (R79, R243). -/
def answerIllegal (s : State) : State := raise .illegal s

/-- The host presents a word as the next command. -/
def present (w : Word) (s : State) : State := { s with commands := w :: s.commands }

end Sys2Proof.Machine
end

