-- ==== Sys2Proof/Machine/Step.lean ====
section
/-! DEFINITION. One step: the next command on the port is performed to completion (spec/10_state.md R37). -/

namespace Sys2Proof.Machine

/-- The next command word is taken, decoded and performed, an illegal one answered (30_encoding.md R79). With no
command on the port the block does nothing. The idle step is a DESIGN CHOICE, safe: log entry 2. -/
def step (s : State) : Host.Outcome State Fault Refusal :=
  match s.commands with
  | []        => .next s
  | w :: rest =>
    match decode w with
    | .command i => exec i (takeCommand rest s)
    | .illegal _ => .next (answerIllegal (takeCommand rest s))

/-- The state with a table word presented as the next command (log entry 2). -/
def State.withFetchWord (s : State) (nbits w : Nat) : State := present (tableWord nbits w) s

end Sys2Proof.Machine
end

