-- ==== Sys2Proof/Machine/Reset.lean ====
section
/-! DEFINITION. Construction and the reset sequence (spec/70_reset_and_hazards.md R270 to R274). -/

namespace Sys2Proof.Machine

/-- Well-formedness of `SR_MAP` (42_serial_expander.md R151, R152): the source's three entries, and 14 distinct
positions. -/
def srMapAccepted (m : SrMap) : Bool :=
  m.setPos[0] == 13 && m.clrPos[0] == 15 && m.setPos[1] == 9 &&
    decide (m.setPos.toList ++ m.clrPos.toList).Nodup

/-- The configurations accepted at construction (R274). Lines are distinct because `Line` names them apart. -/
def accepted (c : Config) : Bool :=
  decide (1 ≤ c.digits ∧ c.digits ≤ 256) &&
  (match c.selector with
   | .oneHot   => true
   | .binary k => decide (1 ≤ k ∧ k ≤ 8 ∧ c.digits ≤ 2 ^ k)) &&
  (match c.backend with
   | .direct   => true
   | .serial m => srMapAccepted m) &&
  c.encodeTable[7] == 0x07#7

/-- The reset sequence (R271), on a block whose line levels and shift register hold whatever they hold at power-on:
slots `None`, an empty trace, then the line writes in order; the display is `Unknown` (45_display_plant.md R225). -/
def resetSequence (s : State) : State :=
  perform (resetEvents s.cfg)
    { s with slots := List.replicate s.cfg.digits none,
             plant := List.replicate s.cfg.digits (Vector.replicate 7 .unknown),
             trace := [], commands := [], responses := [] }

/-- Construction (R270, R274): the block after reset, or no block where the configuration is refused. -/
def construct (c : Config) : Option State :=
  if accepted c then some (State.resetOf c) else none

end Sys2Proof.Machine
end

