-- ==== Sys2Proof/Safety.lean ====
section
/-! DEFINITION. What the statements call safe: the error each command meets, the invariant of the block, and the
consistency contract between slots and display (spec/60_exceptions.md R241 to R245; 40 R103; 42 R160; 43 R185;
45 R227). -/

namespace Sys2Proof.Machine

/-! ## Response fields (30_encoding.md R80) -/

/-- `ERR`, bits 3:0. -/
def errField (r : Word) : BitVec 4 := r.extractLsb' 0 4
/-- `CHANGED`, bit 4. -/
def changedField (r : Word) : Bool := r.getLsbD 4
/-- `DATA`, bits 31:16. -/
def dataField (r : Word) : Mask := r.extractLsb' 16 16

/-! ## Errors -/

/-- The value code holds a number outside 0..9 (60_exceptions.md R241). -/
def valueOutOfRange : Value → Bool
  | .blank    => false
  | .number n => decide (10 ≤ n)

/-- The error code a command meets in a configuration, 0 for none: `OutOfRange` before `DoesNotExist`
(60_exceptions.md R241, R242, R245). -/
def errorOf (c : Config) : Instr → BitVec 4
  | .encode v          => if valueOutOfRange v then 1#4 else 0#4
  | .update d _        => if c.digits ≤ d then 2#4 else 0#4
  | .displayNumber d v => if valueOutOfRange v then 1#4 else if c.digits ≤ d then 2#4 else 0#4
  | .clearPins         => 0#4
  | .strobe d _        =>
    match c.selector with
    | .oneHot   => if c.digits ≤ d then 2#4 else 0#4
    | .binary k => if 2 ^ k ≤ d then 2#4 else 0#4
  | .render n          => if 10 ^ c.digits ≤ n then 1#4 else 0#4

/-! ## The invariant -/

/-- Digit position `d` is enabled: its one-hot line is high, or the shared enable is high with `d` on the address
lines (10_state.md R28). -/
def enabledAt (s : State) (d : Nat) : Bool :=
  match s.cfg.selector with
  | .oneHot   => lineLevel s.lines (.en d)
  | .binary k => s.lines.enable && decide (d < 2 ^ k) &&
                   (List.range k).all fun j => lineLevel s.lines (.addr j) == d.testBit j

/-- Not both coils of a segment are driven (40_segment.md R103, 42_serial_expander.md R160). -/
def coilsSafe (s : State) : Prop := ∀ k : Seg, coilDrive s k ≠ (true, true)

/-- Every coil line is released: the low-power idle condition (60_exceptions.md R255). -/
def released (s : State) : Prop := ∀ k : Seg, coilDrive s k = (false, false)

/-- The lines and registers of the absent back end and the absent selector are 0 (10_state.md R25 to R28). -/
def unownedLow (s : State) : Prop :=
  (match s.cfg.backend with
   | .direct   => s.lines.serData = false ∧ s.sr = ⟨0#16, 0#16⟩
   | .serial _ => s.lines.setL = 0#7 ∧ s.lines.clrL = 0#7) ∧
  (match s.cfg.selector with
   | .oneHot   => s.lines.addr = []
   | .binary k => s.lines.addr.length = k)

/-- Between commands: an accepted configuration, one slot and one display row per digit, every enable low
(43_selector.md R185), the serial clock and latch low (42_serial_expander.md R155), no coil pair driven both ways
(40_segment.md R103, 42_serial_expander.md R160), and nothing on the lines the block does not own. -/
def BlockInv (s : State) : Prop :=
  accepted s.cfg = true ∧
  s.slots.length = s.cfg.digits ∧ s.plant.length = s.cfg.digits ∧
  s.lines.en = (match s.cfg.selector with
                | .oneHot   => List.replicate s.cfg.digits false
                | .binary _ => []) ∧
  s.lines.enable = false ∧ s.lines.serClk = false ∧ s.lines.serLatch = false ∧
  coilsSafe s ∧ unownedLow s

/-! ## The consistency contract (45_display_plant.md R227) -/

/-- The optical state that shows a level. -/
def opticalOf (b : Bool) : Optical := if b then .on else .off

/-- The display shows what slot `d` remembers (10_state.md R22). -/
def shown (s : State) (d : Nat) : Prop :=
  ∀ p, slotAt s d = some p → ∀ k : Seg, plantAt s d k = opticalOf p[k]

/-- What the command sequence so far says about the display. -/
structure Ledger where
  /-- The digit whose drive is on the lines: that of the last successful `UPDATE` or `DISPLAY_NUMBER`. -/
  owner   : Option Nat
  /-- The digit whose changed update has not been strobed yet, with what its slot held before. -/
  pending : Option (Nat × Option Pattern)
  /-- The segments that a hold below the flip time left indeterminate (45_display_plant.md R223). -/
  blurred : List (Nat × Seg)
  deriving DecidableEq, Repr

/-- The ledger before the first command. -/
def Ledger.empty : Ledger := ⟨none, none, []⟩

/-- The pattern a value code stands for; blank for a code that has none (41_digit_controller.md R120, R121). -/
def patternOf (c : Config) (v : Value) : Pattern :=
  match digitOf v with
  | some n => encodeDigit c n
  | none   => 0#7

/-- A coil of segment `k` is driven. -/
def coilDriven (s : State) (k : Seg) : Bool := coilDrive s k != (false, false)

/-- (P1): after a changed update of `d` the next successful command but `ENCODE` is a full strobe of `d`. -/
def keepsP1 (s : State) (g : Ledger) (i : Instr) : Bool :=
  match g.pending with
  | none        => true
  | some (d, _) =>
    match i with
    | .encode _          => true
    | .update _ _        => false
    | .displayNumber _ _ => false
    | .clearPins         => false
    | .strobe e ms       => e == d && decide (s.cfg.tFlipMs ≤ ms)
    | .render _          => false

/-- (P2): a wired digit is strobed only when every coil is released, or under the drive left by its own update. -/
def keepsP2 (s : State) (g : Ledger) (i : Instr) : Bool :=
  match i with
  | .encode _          => true
  | .update _ _        => true
  | .displayNumber _ _ => true
  | .clearPins         => true
  | .strobe e _        => decide (s.cfg.digits ≤ e) || segments.all (fun k => !coilDriven s k) || g.owner == some e
  | .render _          => true

/-- (P3): `RENDER` holds for the flip time. -/
def keepsP3 (s : State) (i : Instr) : Bool :=
  match i with
  | .encode _          => true
  | .update _ _        => true
  | .displayNumber _ _ => true
  | .clearPins         => true
  | .strobe _ _        => true
  | .render _          => decide (s.cfg.tFlipMs ≤ s.cfg.holdMs.toNat)

/-- The protocol of R227 for the next command, in the rule's words. Errored commands do not affect it. (P4) holds
of every state: no step lets anything outside the block change the display. -/
def keepsProtocol (s : State) (g : Ledger) (i : Instr) : Bool :=
  errorOf s.cfg i != 0#4 || (keepsP1 s g i && keepsP2 s g i && keepsP3 s i)

/-- The ledger after an update of slot `d` to `p`: a changed one waits for its strobe. -/
def ledgerAfterUpdate (s : State) (g : Ledger) (d : Nat) (p : Pattern) : Ledger :=
  { g with owner := some d, pending := if slotAt s d = some p then none else some (d, slotAt s d) }

/-- The indeterminate segments after a strobe of `e`: a full hold settles the driven segments of a wired digit, a
short one blurs them (45_display_plant.md R222, R223). -/
def blurredAfterStrobe (s : State) (g : Ledger) (e ms : Nat) : List (Nat × Seg) :=
  if e < s.cfg.digits then
    g.blurred.filter (fun x => !(x.1 == e && coilDriven s x.2)) ++
      if s.cfg.tFlipMs ≤ ms then [] else (segments.filter (coilDriven s)).map fun k => (e, k)
  else g.blurred

/-- The indeterminate segments after a render pass: every segment it drives is settled. -/
def blurredAfterRender (s : State) (g : Ledger) (n : Nat) : List (Nat × Seg) :=
  g.blurred.filter fun x => !(diffOf (slotAt s x.1) (encodeDigit s.cfg (digitAt n x.1)))[x.2]

/-- The ledger after a command. Errored commands and `ENCODE` do not affect the protocol (R227). -/
def ledgerAfter (s : State) (g : Ledger) (i : Instr) : Ledger :=
  if errorOf s.cfg i ≠ 0#4 then g else
  match i with
  | .encode _          => g
  | .update d p        => ledgerAfterUpdate s g d p
  | .displayNumber d v => ledgerAfterUpdate s g d (patternOf s.cfg v)
  | .clearPins         => { g with owner := none, pending := none }
  | .strobe e ms       => { g with pending := none, blurred := blurredAfterStrobe s g e ms }
  | .render n          => ⟨none, none, blurredAfterRender s g n⟩

/-- What digit `d` was last strobed to: its slot, but for the pending digit what its slot held before. -/
def strobedTo (g : Ledger) (s : State) (d : Nat) : Option Pattern :=
  match g.pending with
  | some (e, q) => if d = e then q else slotAt s d
  | none        => slotAt s d

/-- What the contract says segment `k` of digit `d` shows. -/
def displayed (g : Ledger) (s : State) (d : Nat) (k : Seg) : Optical :=
  match strobedTo g s d with
  | none   => .unknown
  | some p => if (d, k) ∈ g.blurred then .unknown else opticalOf p[k]

/-- The contract as an invariant: every segment of every digit shows what the ledger and the slots say; the pending
digit is the one the drive is for; the drive agrees with its owner's slot, and where it releases a segment of the
pending digit the update left that segment as it was. -/
def Contract (g : Ledger) (s : State) : Prop :=
  BlockInv s ∧
  (∀ (d : Nat) (k : Seg), d < s.cfg.digits → plantAt s d k = displayed g s d k) ∧
  (∀ d q, g.pending = some (d, q) → g.owner = some d) ∧
  (∀ e, g.owner = some e → e < s.cfg.digits ∧ ∃ p, slotAt s e = some p ∧
    ∀ k : Seg, coilDrive s k = (false, false) ∨ coilDrive s k = (p[k], !p[k])) ∧
  (∀ d q p, g.pending = some (d, q) → slotAt s d = some p →
    ∀ k : Seg, coilDrive s k = (false, false) → ∃ r, q = some r ∧ r[k] = p[k])

/-- The protocol for the next command word. An illegal word does not affect it (R227). -/
def keepsProtocolWord (s : State) (g : Ledger) (w : Word) : Bool :=
  match decode w with
  | .command i => keepsProtocol s g i
  | .illegal _ => true

/-- The ledger after a command word. -/
def ledgerAfterWord (s : State) (g : Ledger) (w : Word) : Ledger :=
  match decode w with
  | .command i => ledgerAfter s g i
  | .illegal _ => g

/-- A sequence of command words, each presented and performed, under the protocol: the ledger and the state after
it, or `none` where a command breaks the protocol. -/
def runProtocol : List Word → Ledger → State → Option (Ledger × State)
  | [],      g, s => some (g, s)
  | w :: ws, g, s =>
    if keepsProtocolWord s g w then
      match step (present w s) with
      | .next t    => runProtocol ws (ledgerAfterWord s g w) t
      | .fault _   => none
      | .refused _ => none
    else none

end Sys2Proof.Machine
end

