-- ==== Sys2Proof/Certificates/Slice0/Obligations.lean ====
section
/-! DEFINITION. The statements for the provers. The first part writes out, from the rules of spec/ and apart from the
model's own definitions, the words, responses and traces the statements speak of. -/

namespace Sys2Proof.Spec

open Sys2Proof.Machine

/-! ## Words, by arithmetic on the whole word (30_encoding.md R70) -/

def op (w : Word) : Nat := w.toNat / 2 ^ 28
def dig (w : Word) : Nat := w.toNat / 2 ^ 20 % 2 ^ 8
def rsv (w : Word) : Nat := w.toNat / 2 ^ 16 % 2 ^ 4
def opnd (w : Word) : Nat := w.toNat % 2 ^ 16

/-- `BLANK` is set together with a bit of `NUM` (R74, R78). -/
abbrev badBlank (x : Nat) : Prop := 2 ^ 15 < x

/-- The illegal words (R78, R79). -/
abbrev IllegalWord (w : Word) : Prop :=
  op w = 0 ∨ 7 ≤ op w ∨ rsv w ≠ 0 ∨
  (op w = 1 ∧ (dig w ≠ 0 ∨ badBlank (opnd w))) ∨
  (op w = 2 ∧ 2 ^ 7 ≤ opnd w) ∨
  (op w = 3 ∧ badBlank (opnd w)) ∨
  (op w = 4 ∧ (dig w ≠ 0 ∨ opnd w ≠ 0)) ∨
  (op w = 6 ∧ dig w ≠ 0)

/-- The value a legal value code stands for (R74). -/
def valueAt (x : Nat) : Value := if 2 ^ 15 ≤ x then .blank else .number x

/-- The command a legal word stands for (R71, R85). -/
def commandAt (w : Word) : Instr :=
  if op w = 1 then .encode (valueAt (opnd w))
  else if op w = 2 then .update (dig w) (BitVec.ofNat 7 (opnd w))
  else if op w = 3 then .displayNumber (dig w) (valueAt (opnd w))
  else if op w = 4 then .clearPins
  else if op w = 5 then .strobe (dig w) (opnd w)
  else .render (opnd w)

/-- The selector's bound: `N`, or `2^K` (43_selector.md R180). -/
def selectorBound (c : Config) : Nat :=
  match c.selector with
  | .oneHot   => c.digits
  | .binary k => 2 ^ k

/-- A word that, if legal, meets `OutOfRange` (60_exceptions.md R241). -/
abbrev outOfRangeWord (c : Config) (w : Word) : Prop :=
  ((op w = 1 ∨ op w = 3) ∧ opnd w < 2 ^ 15 ∧ 10 ≤ opnd w) ∨ (op w = 6 ∧ 10 ^ c.digits ≤ opnd w)

/-- A word that, if legal, meets `DoesNotExist` (60_exceptions.md R242). -/
abbrev doesNotExistWord (c : Config) (w : Word) : Prop :=
  ((op w = 2 ∨ op w = 3) ∧ c.digits ≤ dig w) ∨ (op w = 5 ∧ selectorBound c ≤ dig w)

/-! ## Responses (30_encoding.md R80, R81) -/

/-- The response word with these fields. -/
def reply (err : Nat) (changed : Bool) (data : Mask) : Word :=
  BitVec.ofNat 32 (data.toNat * 2 ^ 16 + changed.toNat * 2 ^ 4 + err)

/-- `s` with one more response and nothing else changed. -/
def answered (s : State) (r : Word) : State := { s with responses := s.responses ++ [r] }

/-! ## Traces -/

/-- Segment `k` is driven when a slot that holds `old` is updated to `p` (41_digit_controller.md R125). -/
def driven (old : Option Pattern) (p : Pattern) (k : Seg) : Bool :=
  match old with
  | none   => true
  | some q => q[k] != p[k]

/-- The two writes of segment `k` (40_segment.md R101, R102; 41_digit_controller.md R125). -/
def segmentTrace (old : Option Pattern) (p : Pattern) (k : Seg) : List Event :=
  match driven old p k, p[k] with
  | true, true  => [.write (.clrL k) false, .write (.setL k) true]
  | true, false => [.write (.setL k) false, .write (.clrL k) true]
  | false, _    => [.write (.setL k) false, .write (.clrL k) false]

/-- The 50 writes of `shift_out_and_latch(w)`, bit 15 first (42_serial_expander.md R155). -/
def shiftTrace (w : Mask) : List Event :=
  ((List.range 16).flatMap fun i =>
    [.write .serData (w.getLsbD (15 - i)), .write .serClk true, .write .serClk false]) ++
  [.write .serLatch true, .write .serLatch false]

/-- The writes of an update (41_digit_controller.md R125, 42_serial_expander.md R154). -/
def updateTrace (b : Backend) (old : Option Pattern) (p : Pattern) : List Event :=
  match b with
  | .direct   => (List.finRange 7).flatMap (segmentTrace old p)
  | .serial m => shiftTrace (pulseMask m old p)

/-- The writes of `clear_pins` (41_digit_controller.md R128, 42_serial_expander.md R157). -/
def clearTrace : Backend → List Event
  | .direct   => (List.finRange 7).flatMap fun k => [.write (.setL k) false, .write (.clrL k) false]
  | .serial _ => shiftTrace 0#16

/-- The events of a strobe (43_selector.md R181, R182). -/
def strobeTrace (sel : Selector) (d ms : Nat) : List Event :=
  match sel with
  | .oneHot   => [.write (.en d) true, .wait ms, .write (.en d) false]
  | .binary k => ((List.range k).map fun j => .write (.addr j) (d.testBit j)) ++
                   [.write .enable true, .wait ms, .write .enable false]

/-- The events of the reset sequence (70_reset_and_hazards.md R271). -/
def resetTrace (c : Config) : List Event :=
  (match c.selector with
   | .oneHot   => (List.range c.digits).map fun d => .write (.en d) false
   | .binary k => .write .enable false :: (List.range k).map fun j => .write (.addr j) false) ++
  (match c.backend with
   | .direct   => clearTrace .direct
   | .serial m => [.write .serData false, .write .serClk false, .write .serLatch false] ++ clearTrace (.serial m))

/-! ## Rendering (44_render.md R200, R201) -/

/-- The pattern of position `pos` of the number `n`: blank for a leading zero. -/
def renderPattern (c : Config) (n pos : Nat) : Pattern :=
  if pos ≠ 0 ∧ n < 10 ^ pos then 0#7 else c.encodeTable[n / 10 ^ pos % 10]'(Nat.mod_lt _ (by decide))

/-- Position `pos` changes, and so is strobed, in a pass that starts at `s`. -/
def renderChanges (s : State) (n pos : Nat) : Bool := decide (slotAt s pos ≠ some (renderPattern s.cfg n pos))

/-- The positions strobed by a pass that starts at `s`, in order. -/
def renderStrobes (s : State) (n : Nat) : List Nat := (List.range s.cfg.digits).filter (renderChanges s n)

/-- The events of a pass that starts at `s`. -/
def renderTrace (s : State) (n : Nat) : List Event :=
  ((List.range s.cfg.digits).flatMap fun pos =>
    updateTrace s.cfg.backend (slotAt s pos) (renderPattern s.cfg n pos) ++
      if renderChanges s n pos then strobeTrace s.cfg.selector pos s.cfg.holdMs.toNat else []) ++
  clearTrace s.cfg.backend ++ [.wait s.cfg.refreshMs]

/-- The lines of `s` with those of its back end as `clear_pins` leaves them (41_digit_controller.md R128,
42_serial_expander.md R157). -/
def coilsReleased (s : State) : Lines :=
  match s.cfg.backend with
  | .direct   => { s.lines with setL := 0#7, clrL := 0#7 }
  | .serial _ => { s.lines with serData := false }

/-! ## Line ownership (10_state.md R38, R40) -/

/-- The configuration has line `l` (10_state.md R25, R26, R28, R38). -/
def ownsLine (c : Config) : Line → Prop
  | .setL _   => c.backend = .direct
  | .clrL _   => c.backend = .direct
  | .serData  => ∃ m, c.backend = .serial m
  | .serClk   => ∃ m, c.backend = .serial m
  | .serLatch => ∃ m, c.backend = .serial m
  | .en d     => c.selector = .oneHot ∧ d < c.digits
  | .addr j   => ∃ k, c.selector = .binary k ∧ j < k
  | .enable   => ∃ k, c.selector = .binary k

/-- The commands that drive or release segments. -/
def drivesCoils : Instr → Bool
  | .encode _          => false
  | .update _ _        => true
  | .displayNumber _ _ => true
  | .clearPins         => true
  | .strobe _ _        => false
  | .render _          => true

/-- The commands that strobe a digit. -/
def strobes : Instr → Bool
  | .encode _          => false
  | .update _ _        => false
  | .displayNumber _ _ => false
  | .clearPins         => false
  | .strobe _ _        => true
  | .render _          => true

/-- A line of the selector, not of the back end. -/
def isSelectorLine : Line → Bool
  | .setL _   => false
  | .clrL _   => false
  | .serData  => false
  | .serClk   => false
  | .serLatch => false
  | .en _     => true
  | .addr _   => true
  | .enable   => true

/-- The configuration has line `l`, and a unit that command `i` uses owns it. -/
def mayWrite (c : Config) (i : Instr) (l : Line) : Prop :=
  ownsLine c l ∧ (if isSelectorLine l then strobes i else drivesCoils i) = true

/-- Line `l` is there to be written: a line of a row has its place in the row. -/
def hasLine (s : State) : Line → Prop
  | .en d   => d < s.lines.en.length
  | .addr j => j < s.lines.addr.length
  | _       => True

/-! ## Construction and the replay of the trace -/

/-- The construction requirements, one by one (70_reset_and_hazards.md R274). -/
def acceptable (c : Config) : Prop :=
  1 ≤ c.digits ∧ c.digits ≤ 256 ∧
  (∀ k, c.selector = .binary k → 1 ≤ k ∧ k ≤ 8 ∧ c.digits ≤ 2 ^ k) ∧
  (∀ m, c.backend = .serial m →
    m.setPos[0] = 13 ∧ m.clrPos[0] = 15 ∧ m.setPos[1] = 9 ∧
    (∀ j k : Seg, j ≠ k → m.setPos[j] ≠ m.setPos[k] ∧ m.clrPos[j] ≠ m.clrPos[k]) ∧
    ∀ j k : Seg, m.setPos[j] ≠ m.clrPos[k]) ∧
  c.encodeTable[7] = 0x07#7

/-- The lines and the shift register are what the trace makes of low lines and a cleared register. -/
def traceExplains (s : State) : Prop :=
  let low := { State.resetOf s.cfg with trace := [] }
  (perform s.trace low).lines = s.lines ∧ (perform s.trace low).sr = s.sr

end Sys2Proof.Spec

open Sys2Proof Sys2Proof.Machine Sys2Proof.Spec

/-! ## Line writes -/

/-- 00_scope.md R12, 40_segment.md R104: a line write sets its line, no other line and nothing else but the shift
register; a wait changes only the trace. -/
def Obligations.LineWrites : Prop :=
  ∀ (s : State) (l : Line) (b : Bool),
    (hasLine s l → lineLevel (emit s (.write l b)).lines l = b) ∧
    (∀ l' : Line, l' ≠ l → lineLevel (emit s (.write l b)).lines l' = lineLevel s.lines l') ∧
    emit s (.write l b) = { s with
      lines := (emit s (.write l b)).lines
      sr := (emit s (.write l b)).sr
      trace := s.trace ++ [.write l b] } ∧
    ∀ ms : Nat, emit s (.wait ms) = { s with trace := s.trace ++ [.wait ms] }

/-! ## Encoding -/

/-- 30_encoding.md R70 to R78, R84, R85: every well-formed command, every operand at every value its field admits. -/
def Obligations.DecodeEncode : Prop :=
  ∀ i : Instr, i.wellFormed = true → decode (encode i) = .command i

/-- 30_encoding.md R70 to R79, R85: a legal word is the word of the command it decodes to, which is well formed. -/
def Obligations.EncodeDecode : Prop :=
  ∀ (w : Word) (i : Instr), decode w = .command i → i.wellFormed = true ∧ encode i = w

/-- 30_encoding.md R85, with the illegal words of R78 and R79 and the commands of R71 and R74 to R77. -/
def Obligations.DecoderIsTotal : Prop :=
  ∀ w : Word, (IllegalWord w → ∃ why, decode w = .illegal why) ∧
    (¬ IllegalWord w → decode w = .command (commandAt w))

/-- Words written out from 30_encoding.md R84 and 95_test_vectors.md L2. -/
def Obligations.SampleWords : Prop :=
  decode 0x10007FFF#32 = .command (.encode (.number 32767)) ∧
  decode 0x2FF00001#32 = .command (.update 255 0x01#7) ∧
  decode 0x3050000C#32 = .command (.displayNumber 5 (.number 12)) ∧
  decode 0x40000000#32 = .command .clearPins ∧
  decode 0x50300064#32 = .command (.strobe 3 100) ∧
  decode 0x6000FFFF#32 = .command (.render 65535) ∧
  decode 0x20000080#32 = .illegal .operand ∧ decode 0x10008001#32 = .illegal .blank

/-! ## The step -/

/-- 10_state.md R37, 20_memory.md R62: the word is taken from the port and its command performed. -/
def Obligations.StepRunsCommand : Prop :=
  ∀ (s : State) (w : Word) (rest : List Word) (i : Instr),
    s.commands = w :: rest → decode w = .command i → step s = exec i { s with commands := rest }

/-- The MODEL'S CHOICE, log entry 2: with no command presented the block does nothing (10_state.md R36, R37). -/
def Obligations.StepIdle : Prop := ∀ s : State, s.commands = [] → step s = .next s

/-- 30_encoding.md R79: which words are illegal, and that an illegal word only draws its response. -/
def Obligations.IllegalWordAnswered : Prop :=
  ∀ w : Word,
    (IllegalWord w ↔ ∃ why, decode w = .illegal why) ∧
    ∀ (s : State) (rest : List Word), s.commands = w :: rest → IllegalWord w →
      step s = .next (answered { s with commands := rest } (reply 0xF false 0#16))

/-- 30_encoding.md R80: exactly one response per command word, of this layout. -/
def Obligations.OneResponsePerCommand : Prop :=
  ∀ (s : State) (w : Word) (rest : List Word), s.commands = w :: rest →
    ∃ (t : State) (err : Nat) (changed : Bool) (data : Mask),
      step s = .next t ∧ t.commands = rest ∧ t.responses = s.responses ++ [reply err changed data] ∧
      (err = 0x0 ∨ err = 0x1 ∨ err = 0x2 ∨ err = 0xF) ∧
      (err ≠ 0 → changed = false ∧ data = 0#16)

/-- 60_exceptions.md R245, with the errors of R241 to R243: which one is reported. -/
def Obligations.ErrorPriority : Prop :=
  ∀ (s : State) (w : Word) (rest : List Word), s.commands = w :: rest →
    ∃ (t : State) (r : Word), step s = .next t ∧ t.responses = s.responses ++ [r] ∧
      (IllegalWord w → errField r = 0xF#4) ∧
      (¬ IllegalWord w → outOfRangeWord s.cfg w → errField r = 0x1#4) ∧
      (¬ IllegalWord w → ¬ outOfRangeWord s.cfg w → doesNotExistWord s.cfg w → errField r = 0x2#4) ∧
      (¬ IllegalWord w → ¬ outOfRangeWord s.cfg w → ¬ doesNotExistWord s.cfg w → errField r = 0x0#4) ∧
      (outOfRangeWord s.cfg w → doesNotExistWord s.cfg w → op w = 3)

/-- 60_exceptions.md R244: a command that ends in an error changes nothing but the two ports. -/
def Obligations.NoPartialEffect : Prop :=
  ∀ (s t : State) (w : Word) (rest : List Word) (r : Word), s.commands = w :: rest → step s = .next t →
    t.responses = s.responses ++ [r] → errField r ≠ 0#4 →
    t = answered { s with commands := rest } r

/-- 60_exceptions.md R241, R242: the errors of each command, and that a command without one succeeds. -/
def Obligations.ErrorsOfEachCommand : Prop :=
  ∀ (i : Instr) (s : State), ∃ (t : State) (r : Word),
    exec i s = .next t ∧ t.responses = s.responses ++ [r] ∧ errField r = errorOf s.cfg i ∧
    (errorOf s.cfg i ≠ 0#4 → t = answered s (reply (errorOf s.cfg i).toNat false 0#16))

/-! ## ENCODE -/

/-- 41_digit_controller.md R121, R122, R123. -/
def Obligations.EncodeResult : Prop :=
  ∀ s : State,
    (∀ (n : Nat) (h : n < 10),
      exec (.encode (.number n)) s = .next (answered s (reply 0 false ((s.cfg.encodeTable[n]).setWidth 16)))) ∧
    exec (.encode .blank) s = .next (answered s (reply 0 false 0#16)) ∧
    (∀ n : Nat, 10 ≤ n → exec (.encode (.number n)) s = .next (answered s (reply 1 false 0#16)))

/-- 41_digit_controller.md R120: the one entry the source fixes, in every accepted configuration. -/
def Obligations.EncodeSeven : Prop :=
  ∀ s : State, accepted s.cfg = true → exec (.encode (.number 7)) s = .next (answered s 0x00070000#32)

/-! ## UPDATE -/

/-- 41_digit_controller.md R125: slot, lines, the 14 writes in order, `changed`, and nothing else. -/
def Obligations.UpdateDirect : Prop :=
  ∀ (s : State) (d : Nat) (p : Pattern), s.cfg.backend = .direct → d < s.cfg.digits →
    ∃ diff : Pattern, (∀ k : Seg, diff[k] = driven (slotAt s d) p k) ∧
      exec (.update d p) s = .next
        { s with
          slots := s.slots.set d (some p)
          lines := { s.lines with setL := p &&& diff, clrL := ~~~p &&& diff }
          trace := s.trace ++ updateTrace .direct (slotAt s d) p
          responses := s.responses ++ [reply 0 (decide (slotAt s d ≠ some p)) 0#16] } ∧
      (updateTrace .direct (slotAt s d) p).length = 14

/-- 42_serial_expander.md R154: the mask is shifted out and latched, zero included, and returned in `DATA`. -/
def Obligations.UpdateSerial : Prop :=
  ∀ (s : State) (m : SrMap) (d : Nat) (p : Pattern), s.cfg.backend = .serial m → d < s.cfg.digits →
    s.lines.serClk = false → s.lines.serLatch = false →
    let mask := pulseMask m (slotAt s d) p
    exec (.update d p) s = .next
      { s with
        slots := s.slots.set d (some p)
        lines := { s.lines with serData := mask.getLsbD 0 }
        sr := ⟨mask, mask⟩
        trace := s.trace ++ shiftTrace mask
        responses := s.responses ++ [reply 0 (decide (mask ≠ 0#16)) mask] } ∧
    (mask ≠ 0#16 ↔ slotAt s d ≠ some p)

/-- 42_serial_expander.md R153: the mask bit by bit, its corner cases, and one bit per driven segment. -/
def Obligations.PulseMaskBits : Prop :=
  ∀ (m : SrMap) (old : Option Pattern) (p : Pattern), srMapAccepted m = true →
    (∀ i : Fin 16, (pulseMask m old p)[i] = true ↔
      ∃ k : Seg, driven old p k = true ∧ i = if p[k] then m.setPos[k] else m.clrPos[k]) ∧
    (∀ k : Seg, ¬ ((pulseMask m old p)[m.setPos[k]] = true ∧ (pulseMask m old p)[m.clrPos[k]] = true)) ∧
    (old = some p → pulseMask m old p = 0#16) ∧
    ((List.finRange 16).filter fun i => (pulseMask m old p)[i]).length =
      ((List.finRange 7).filter (driven old p)).length ∧
    (old = none → ((List.finRange 16).filter fun i => (pulseMask m old p)[i]).length = 7)

/-- 42_serial_expander.md R155: what 50 writes leave, whatever the register held. -/
def Obligations.ShiftOutAndLatch : Prop :=
  ∀ (s : State) (w : Mask), s.lines.serClk = false → s.lines.serLatch = false →
    shiftOutAndLatch w s =
      { s with
        lines := { s.lines with serData := w.getLsbD 0 }
        sr := ⟨w, w⟩
        trace := s.trace ++ shiftTrace w } ∧
    (shiftTrace w).length = 50

/-- 42_serial_expander.md R156: the register at one event. -/
def Obligations.ShiftRegisterEdges : Prop :=
  ∀ (s : State) (e : Event),
    (e = .write .serClk true → s.lines.serClk = false →
      (emit s e).sr.q = s.sr.q ∧ (emit s e).sr.stage[0] = s.lines.serData ∧
      ∀ j : Nat, j < 15 → (emit s e).sr.stage.getLsbD (j + 1) = s.sr.stage.getLsbD j) ∧
    (e = .write .serLatch true → s.lines.serLatch = false → (emit s e).sr = ⟨s.sr.stage, s.sr.stage⟩) ∧
    (¬ (e = .write .serClk true ∧ s.lines.serClk = false) →
      ¬ (e = .write .serLatch true ∧ s.lines.serLatch = false) → (emit s e).sr = s.sr)

/-- 41_digit_controller.md R129: the second of two equal updates drives nothing, on either back end. The lines and
the register of the back end the configuration lacks are as before. -/
def Obligations.UpdateIdempotent : Prop :=
  ∀ (s : State) (d : Nat) (p : Pattern), BlockInv s → d < s.cfg.digits →
    ∃ (t u : State) (r1 r2 : Word),
      exec (.update d p) s = .next t ∧ exec (.update d p) t = .next u ∧
      u.responses = s.responses ++ [r1, r2] ∧
      changedField r1 = decide (slotAt s d ≠ some p) ∧ changedField r2 = false ∧ dataField r2 = 0#16 ∧
      u.slots = t.slots ∧ released u ∧
      (match s.cfg.backend with
       | .direct   => u.lines.setL = 0#7 ∧ u.lines.clrL = 0#7 ∧ u.sr = s.sr
       | .serial _ => u.sr.q = 0#16 ∧ u.lines.setL = s.lines.setL ∧ u.lines.clrL = s.lines.clrL)

/-- 41_digit_controller.md R130. -/
def Obligations.FirstWrite : Prop :=
  ∀ (s : State) (d : Nat) (p : Pattern), BlockInv s → d < s.cfg.digits → slotAt s d = none →
    ∃ (t : State) (r : Word), exec (.update d p) s = .next t ∧ t.responses = s.responses ++ [r] ∧
      changedField r = true ∧ ∀ k : Seg, coilDrive t k = (p[k], !p[k])

/-- 41_digit_controller.md R131, on either back end. -/
def Obligations.DiffCorrect : Prop :=
  ∀ (s : State) (d : Nat) (p : Pattern), BlockInv s → d < s.cfg.digits →
    ∃ (t : State) (r : Word), exec (.update d p) s = .next t ∧ t.responses = s.responses ++ [r] ∧
      (∀ q, slotAt s d = some q →
        (∀ k : Seg, q[k] ≠ p[k] → coilDrive t k = (p[k], !p[k])) ∧
        (∀ k : Seg, q[k] = p[k] → coilDrive t k = (false, false)) ∧
        changedField r = decide (q ≠ p)) ∧
      (slotAt s d = none → changedField r = true)

/-- 45_display_plant.md R228: whatever the display shows, an update to the remembered pattern drives no segment. -/
def Obligations.SamePatternNeverRedriven : Prop :=
  ∀ (s : State) (d : Nat) (p : Pattern) (pl : List (Vector Optical 7)), BlockInv s → d < s.cfg.digits →
    slotAt s d = some p →
    ∃ (t : State) (r : Word), exec (.update d p) { s with plant := pl } = .next t ∧
      t.responses = s.responses ++ [r] ∧ changedField r = false ∧ released t ∧ t.plant = pl ∧ t.slots = s.slots

/-! ## DISPLAY_NUMBER -/

/-- 41_digit_controller.md R126: `encode`, then `update`, with both errors. -/
def Obligations.DisplayNumberResult : Prop :=
  ∀ (s : State) (d : Nat),
    (∀ (n : Nat) (h : n < 10), d < s.cfg.digits →
      ∃ t, exec (.displayNumber d (.number n)) s = .next t ∧ exec (.update d s.cfg.encodeTable[n]) s = .next t ∧
        t.slots = s.slots.set d (some s.cfg.encodeTable[n])) ∧
    (d < s.cfg.digits →
      ∃ t, exec (.displayNumber d .blank) s = .next t ∧ exec (.update d 0#7) s = .next t ∧
        t.slots = s.slots.set d (some 0#7)) ∧
    (∀ n : Nat, 10 ≤ n → exec (.displayNumber d (.number n)) s = .next (answered s (reply 1 false 0#16))) ∧
    (∀ (n : Nat), n < 10 → s.cfg.digits ≤ d →
      exec (.displayNumber d (.number n)) s = .next (answered s (reply 2 false 0#16))) ∧
    (s.cfg.digits ≤ d → exec (.displayNumber d .blank) s = .next (answered s (reply 2 false 0#16)))

/-! ## CLEAR_PINS -/

/-- 41_digit_controller.md R127, R128 and 42_serial_expander.md R157: every coil line released, no slot changed. -/
def Obligations.ClearPinsResult : Prop :=
  ∀ s : State,
    (s.cfg.backend = .direct →
      exec .clearPins s = .next
        { s with
          lines := { s.lines with setL := 0#7, clrL := 0#7 }
          trace := s.trace ++ clearTrace .direct
          responses := s.responses ++ [reply 0 false 0#16] }) ∧
    (∀ m : SrMap, s.cfg.backend = .serial m → s.lines.serClk = false → s.lines.serLatch = false →
      exec .clearPins s = .next
        { s with
          lines := { s.lines with serData := false }
          sr := ⟨0#16, 0#16⟩
          trace := s.trace ++ shiftTrace 0#16
          responses := s.responses ++ [reply 0 false 0#16] })

/-! ## STROBE -/

/-- 43_selector.md R181: the one-hot strobe, all it changes but the display; from low enables, only `EN[d]` is ever
high and only inside the strobe. -/
def Obligations.StrobeOneHot : Prop :=
  ∀ (s : State) (d ms : Nat), s.cfg.selector = .oneHot → d < s.cfg.digits →
    ∃ t, exec (.strobe d ms) s = .next t ∧
      t = { s with
            lines := { s.lines with en := s.lines.en.set d false }
            plant := t.plant
            trace := s.trace ++ strobeTrace .oneHot d ms
            responses := s.responses ++ [reply 0 false 0#16] } ∧
      ((∀ e : Nat, lineLevel s.lines (.en e) = false) →
        (∀ e : Nat, lineLevel t.lines (.en e) = false) ∧
        ∀ pre : List Event, pre <+: strobeTrace .oneHot d ms →
          ∀ e : Nat, lineLevel (perform pre s).lines (.en e) = true → e = d)

/-- 43_selector.md R182: the binary strobe, all it changes but the display of a wired digit. -/
def Obligations.StrobeBinary : Prop :=
  ∀ (s : State) (k d ms : Nat), s.cfg.selector = .binary k → s.lines.addr.length = k → d < 2 ^ k →
    ∃ t, exec (.strobe d ms) s = .next t ∧
      t = { s with
            lines := { s.lines with addr := (List.range k).map d.testBit, enable := false }
            plant := t.plant
            trace := s.trace ++ strobeTrace (.binary k) d ms
            responses := s.responses ++ [reply 0 false 0#16] } ∧
      (s.cfg.digits ≤ d → t.plant = s.plant)

/-- 45_display_plant.md R222, R226: the display after a strobe, for every digit and segment. -/
def Obligations.StrobeDisplay : Prop :=
  ∀ (s : State) (d ms : Nat), s.plant.length = s.cfg.digits → d < selectorBound s.cfg →
    ∃ t, exec (.strobe d ms) s = .next t ∧ t.plant.length = s.plant.length ∧
      (∀ (e : Nat) (k : Seg), e ≠ d → plantAt t e k = plantAt s e k) ∧
      (s.cfg.digits ≤ d → t.plant = s.plant) ∧
      (d < s.cfg.digits → ∀ k : Seg,
        (coilDrive s k = (false, false) → plantAt t d k = plantAt s d k) ∧
        (coilDrive s k = (true, false) →
          plantAt t d k = if s.cfg.tFlipMs ≤ ms then Optical.on else Optical.unknown) ∧
        (coilDrive s k = (false, true) →
          plantAt t d k = if s.cfg.tFlipMs ≤ ms then Optical.off else Optical.unknown) ∧
        (coilDrive s k = (true, true) → plantAt t d k = Optical.unknown))

/-- 45_display_plant.md R221: which lines are a segment's coil drive. -/
def Obligations.CoilDriveLines : Prop :=
  ∀ (s : State) (k : Seg),
    (s.cfg.backend = .direct →
      coilDrive s k = (lineLevel s.lines (.setL k), lineLevel s.lines (.clrL k))) ∧
    (∀ m : SrMap, s.cfg.backend = .serial m →
      coilDrive s k = (s.sr.q.getLsbD (m.setPos[k]).val, s.sr.q.getLsbD (m.clrPos[k]).val))

/-! ## RENDER -/

/-- 44_render.md R201: the decimal digits with leading zeros suppressed. -/
def Obligations.DigitAtCases : Prop :=
  ∀ n pos : Nat,
    (digitAt n 0).map Fin.val = some (n % 10) ∧
    (pos ≠ 0 → n < 10 ^ pos → digitAt n pos = none) ∧
    (pos ≠ 0 → 10 ^ pos ≤ n → (digitAt n pos).map Fin.val = some (n / 10 ^ pos % 10))

/-- 44_render.md R201: the positions of a unit that fits `n` spell `n`. -/
def Obligations.DigitsSpellTheNumber : Prop :=
  ∀ n N : Nat, 1 ≤ N → n < 10 ^ N →
    ((List.range N).map fun pos => ((digitAt n pos).map Fin.val).getD 0 * 10 ^ pos).sum = n

/-- 44_render.md R200, R203: a pass, from every state that meets the invariant, in every configuration. The lines and
the register of the back end the configuration lacks are as before. -/
def Obligations.RenderResult : Prop :=
  ∀ (s : State) (n : Nat), BlockInv s → n < 10 ^ s.cfg.digits →
    ∃ (t : State) (data : Mask), exec (.render n) s = .next t ∧
      (∀ pos : Nat, data.getLsbD pos =
        (decide (pos < 16) && decide (pos < s.cfg.digits) && renderChanges s n pos)) ∧
      t = { s with
            slots := (List.range s.cfg.digits).map fun pos => some (renderPattern s.cfg n pos)
            lines := { coilsReleased s with
              addr := match s.cfg.selector, (renderStrobes s n).getLast? with
                      | .binary k, some last => (List.range k).map last.testBit
                      | _, _                 => s.lines.addr }
            sr := match s.cfg.backend with
                  | .direct   => s.sr
                  | .serial _ => ⟨0#16, 0#16⟩
            plant := t.plant
            trace := s.trace ++ renderTrace s n
            responses := s.responses ++ [reply 0 (decide (renderStrobes s n ≠ [])) data] }

/-- 44_render.md R200 with 45_display_plant.md R222: what a pass makes of the display. -/
def Obligations.RenderDisplay : Prop :=
  ∀ (s : State) (n : Nat), BlockInv s → n < 10 ^ s.cfg.digits →
    ∃ t, exec (.render n) s = .next t ∧ t.plant.length = s.plant.length ∧
      ∀ (d : Nat) (k : Seg), d < s.cfg.digits →
        plantAt t d k =
          if driven (slotAt s d) (renderPattern s.cfg n d) k then
            if s.cfg.tFlipMs ≤ s.cfg.holdMs.toNat then opticalOf (renderPattern s.cfg n d)[k] else .unknown
          else plantAt s d k

/-- 44_render.md R202. -/
def Obligations.RenderOutOfRange : Prop :=
  ∀ (s : State) (n : Nat),
    (10 ^ s.cfg.digits ≤ n → exec (.render n) s = .next (answered s (reply 1 false 0#16))) ∧
    (5 ≤ s.cfg.digits → (Instr.render n).wellFormed = true → n < 10 ^ s.cfg.digits)

/-- 44_render.md R205: the second of two equal passes strobes nothing; the first after reset strobes everything. -/
def Obligations.RenderTwice : Prop :=
  ∀ n : Nat,
    (∀ s : State, BlockInv s → n < 10 ^ s.cfg.digits →
      ∃ t u, exec (.render n) s = .next t ∧ exec (.render n) t = .next u ∧
        u.responses = t.responses ++ [0x00000000#32] ∧ u.slots = t.slots ∧ u.plant = t.plant ∧
        u.trace = t.trace ++ renderTrace t n ∧ renderStrobes t n = []) ∧
    (∀ c : Config, accepted c = true → n < 10 ^ c.digits →
      ∃ (t : State) (r : Word), exec (.render n) (State.resetOf c) = .next t ∧ t.responses = [r] ∧
        changedField r = true ∧ t.trace = resetTrace c ++ renderTrace (State.resetOf c) n ∧
        renderStrobes (State.resetOf c) n = List.range c.digits ∧
        ∀ pos : Nat, pos < 16 → (dataField r).getLsbD pos = decide (pos < c.digits))

/-! ## Reset and construction -/

/-- 70_reset_and_hazards.md R271: from any levels of the owned lines and any contents of the shift register. The
premises on absent lines are log entry 4, the empty ports log entries 2 and 3. -/
def Obligations.ResetSequence : Prop :=
  ∀ s : State,
    s.lines.en.length = (match s.cfg.selector with | .oneHot => s.cfg.digits | .binary _ => 0) →
    s.lines.addr.length = (match s.cfg.selector with | .oneHot => 0 | .binary k => k) →
    (s.cfg.selector = .oneHot → s.lines.enable = false) →
    (match s.cfg.backend with
     | .direct   => s.lines.serData = false ∧ s.lines.serClk = false ∧ s.lines.serLatch = false ∧ s.sr = ⟨0#16, 0#16⟩
     | .serial _ => s.lines.setL = 0#7 ∧ s.lines.clrL = 0#7) →
    resetSequence s = State.resetOf s.cfg ∧ (resetSequence s).trace = resetTrace s.cfg

/-- 10_state.md R35: the reset value of every element a configuration has. -/
def Obligations.ResetValues : Prop :=
  ∀ c : Config,
    (State.resetOf c).slots.length = c.digits ∧ (State.resetOf c).plant.length = c.digits ∧
    (∀ d : Nat, d < c.digits → slotAt (State.resetOf c) d = none) ∧
    (c.selector = .oneHot → (State.resetOf c).lines.en.length = c.digits) ∧
    (∀ k : Nat, c.selector = .binary k → (State.resetOf c).lines.addr.length = k) ∧
    (∀ l : Line, ownsLine c l → lineLevel (State.resetOf c).lines l = false) ∧
    (∀ m : SrMap, c.backend = .serial m → (State.resetOf c).sr.stage = 0#16 ∧ (State.resetOf c).sr.q = 0#16) ∧
    (∀ (d : Nat) (k : Seg), d < c.digits → plantAt (State.resetOf c) d k = .unknown) ∧
    (State.resetOf c).trace = resetTrace c

/-- The MODEL'S CHOICE, log entry 4: after reset the lines and the register a configuration lacks are 0, and its
rows of absent lines are empty. -/
def Obligations.AbsentUnitsAtReset : Prop :=
  ∀ c : Config,
    (∀ l : Line, ¬ ownsLine c l → lineLevel (State.resetOf c).lines l = false) ∧
    (c.backend = .direct → (State.resetOf c).sr = ⟨0#16, 0#16⟩) ∧
    (c.selector = .oneHot → (State.resetOf c).lines.addr = []) ∧
    (∀ k : Nat, c.selector = .binary k → (State.resetOf c).lines.en = [])

/-- 70_reset_and_hazards.md R274: which configurations give a block, and which block. -/
def Obligations.ConstructionAccepts : Prop :=
  ∀ c : Config, (acceptable c → construct c = some (State.resetOf c)) ∧ (¬ acceptable c → construct c = none)

/-! ## Invariants and whole-machine rules -/

/-- The invariant holds after construction, in every accepted configuration and so at `State.reset`. What it says of
the lines and the register a configuration lacks is the MODEL'S CHOICE, log entry 4; which configuration `State.reset`
has is log entry 1. -/
def Obligations.InvAtReset : Prop :=
  (∀ c : Config, accepted c = true → BlockInv (State.resetOf c)) ∧ BlockInv State.reset

/-- Every step keeps the invariant: 40_segment.md R103, 42_serial_expander.md R160, 43_selector.md R185 between
commands, and the lines of an absent unit stay unwritten (10_state.md R40). That those are 0 is log entry 4. -/
def Obligations.StepKeepsInv : Prop :=
  ∀ s t : State, BlockInv s → step s = .next t → BlockInv t

/-- 40_segment.md R103, 42_serial_expander.md R160, 43_selector.md R185 inside a command: at every point of the events
a step adds, no coil pair is driven both ways and at most one position is enabled. -/
def Obligations.EveryEventSafe : Prop :=
  ∀ s t : State, BlockInv s → step s = .next t →
    ∃ es : List Event, t.trace = s.trace ++ es ∧
      ∀ pre : List Event, pre <+: es →
        coilsSafe (perform pre s) ∧
        (∀ d e : Nat, enabledAt (perform pre s) d = true → enabledAt (perform pre s) e = true → d = e)

/-- 10_state.md R33, 00_scope.md R12: the levels are those the trace writes, from the low levels of reset on. That
these include the lines and the register a configuration lacks is log entry 4. -/
def Obligations.LinesFollowTrace : Prop :=
  (∀ c : Config, traceExplains (State.resetOf c)) ∧
  ∀ s t : State, traceExplains s → step s = .next t → traceExplains t

/-- 10_state.md R21, R33: no step changes the configuration or shortens the trace. That the responses are kept is the
model's form of the response port (log entry 3), that the port is a tail its form of the command port (log entry 2). -/
def Obligations.StepExtends : Prop :=
  ∀ s t : State, step s = .next t →
    t.cfg = s.cfg ∧ s.trace <+: t.trace ∧ s.responses <+: t.responses ∧ t.commands <:+ s.commands ∧
    t.slots.length = s.slots.length ∧ t.plant.length = s.plant.length

/-- 10_state.md R23: there is no path back to `Unwritten`. -/
def Obligations.SlotsNeverForgotten : Prop :=
  ∀ (s t : State) (d : Nat), step s = .next t → slotAt s d ≠ none → slotAt t d ≠ none

/-- 10_state.md R24: which commands write a slot, and that the other commands, and those that end in an error, come
out the same whatever the slot holds. -/
def Obligations.SlotAccess : Prop :=
  ∀ (i : Instr) (s t : State) (d : Nat), exec i s = .next t →
    (slotAt t d ≠ slotAt s d →
      errorOf s.cfg i = 0#4 ∧ ((∃ p, i = .update d p) ∨ (∃ v, i = .displayNumber d v) ∨ (∃ n, i = .render n))) ∧
    ((errorOf s.cfg i ≠ 0#4 ∨
        ((∀ p, i ≠ .update d p) ∧ (∀ v, i ≠ .displayNumber d v) ∧ (∀ n, i ≠ .render n))) →
      ∀ x : Option Pattern,
        exec i { s with slots := s.slots.set d x } = .next { t with slots := t.slots.set d x })

/-- 10_state.md R38, R40: the events of a command write only lines the configuration has and the command's units own,
and the lines and the shift register end as those events leave them. -/
def Obligations.LineOwnership : Prop :=
  ∀ (i : Instr) (s t : State), exec i s = .next t →
    ∃ es : List Event, t.trace = s.trace ++ es ∧ t.lines = (perform es s).lines ∧ t.sr = (perform es s).sr ∧
      ∀ (l : Line) (b : Bool), Event.write l b ∈ es → mayWrite s.cfg i l

/-- 45_display_plant.md R220, R224: which commands change the display, and that a strobe changes its digit alone. -/
def Obligations.DisplayChangedOnlyByStrobes : Prop :=
  ∀ (i : Instr) (s t : State) (d : Nat) (k : Seg), exec i s = .next t → plantAt t d k ≠ plantAt s d k →
    (∃ ms, i = .strobe d ms) ∨ (∃ n, i = .render n)

/-- 45_display_plant.md R220: the block cannot read the display; everything else comes out the same. -/
def Obligations.DisplayIsWriteOnly : Prop :=
  ∀ (i : Instr) (s t : State) (pl : List (Vector Optical 7)), exec i s = .next t →
    ∃ pl', exec i { s with plant := pl } = .next { t with plant := pl' }

/-! ## The consistency contract -/

/-- 45_display_plant.md R227 as an invariant, under (P1), (P2) and (P3) as the rule words them: of every command, and
of every step on a command word, illegal words among them. What a segment shows after a short second strobe or before
a pending one is log entry 8. -/
def Obligations.ContractStep : Prop :=
  (∀ (g : Ledger) (s t : State) (i : Instr), Contract g s → keepsProtocol s g i = true → exec i s = .next t →
    Contract (ledgerAfter s g i) t) ∧
  (∀ (g : Ledger) (s t : State) (w : Word) (rest : List Word), s.commands = w :: rest → Contract g s →
    keepsProtocolWord s g w = true → step s = .next t → Contract (ledgerAfterWord s g w) t)

/-- 45_display_plant.md R227, from reset, under its words: what every segment of every digit shows after every
sequence of command words. The pending digit and the segments blurred by a short hold are log entry 8. -/
def Obligations.ContractFromReset : Prop :=
  ∀ (c : Config) (ws : List Word) (g : Ledger) (s : State), accepted c = true →
    runProtocol ws Ledger.empty (State.resetOf c) = some (g, s) →
    (∀ (d : Nat) (k : Seg), d < c.digits → plantAt s d k = displayed g s d k) ∧
    ∀ (d : Nat) (p : Pattern) (k : Seg), slotAt s d = some p → (∀ q, g.pending ≠ some (d, q)) →
      (d, k) ∉ g.blurred → plantAt s d k = opticalOf p[k]

/-- 45_display_plant.md R227 for a host that also holds every strobe for the flip time, as 70_reset_and_hazards.md
R277 asks: every digit shows what its slot remembers, but for the one whose strobe is still to come, which shows what
its slot held before. Log entry 8. -/
def Obligations.ContractWithFullHolds : Prop :=
  ∀ (c : Config) (ws : List Word) (g : Ledger) (s : State), accepted c = true →
    runProtocol ws Ledger.empty (State.resetOf c) = some (g, s) →
    (∀ w ∈ ws, ∀ d ms : Nat, decode w = .command (.strobe d ms) → c.tFlipMs ≤ ms) →
    (∀ d : Nat, (∀ q, g.pending ≠ some (d, q)) → shown s d) ∧
    (∀ (d : Nat) (r : Pattern), g.pending = some (d, some r) → ∀ k : Seg, plantAt s d k = opticalOf r[k]) ∧
    (g.pending = none → ∀ d : Nat, shown s d)

/-- 45_display_plant.md R227 word for word: a sequence from reset that keeps (P1), (P2) and (P3) to its end, and the
contract after every command of it. EXPECTED TO FAIL, by R125 and R222 themselves: log entry 8. -/
def Obligations.ContractAsWritten : Prop :=
  ∀ (c : Config) (ws vs : List Word) (g g' : Ledger) (s s' : State), accepted c = true →
    runProtocol ws Ledger.empty (State.resetOf c) = some (g, s) → runProtocol vs g s = some (g', s') →
    g'.pending = none → ∀ d : Nat, shown s d
end

