-- ==== Sys2Proof/Laws/State.lean ====
section
/-! SUPPORT. What each update of the state does to each field: one lemma per field per operation. -/

namespace Sys2Proof.Machine

/-- Two states with equal fields are equal. -/
theorem state_ext {s t : State} (hcfg : s.cfg = t.cfg) (hslots : s.slots = t.slots) (hlines : s.lines = t.lines)
    (hsr : s.sr = t.sr) (hplant : s.plant = t.plant) (htrace : s.trace = t.trace)
    (hcommands : s.commands = t.commands) (hresponses : s.responses = t.responses) : s = t := by
  cases s; cases t; simp_all

@[simp] theorem writeSlot_cfg (d p s) : (writeSlot d p s).cfg = s.cfg := rfl
@[simp] theorem writeSlot_slots (d p s) : (writeSlot d p s).slots = s.slots.set d (some p) := rfl
@[simp] theorem writeSlot_lines (d p s) : (writeSlot d p s).lines = s.lines := rfl
@[simp] theorem writeSlot_sr (d p s) : (writeSlot d p s).sr = s.sr := rfl
@[simp] theorem writeSlot_plant (d p s) : (writeSlot d p s).plant = s.plant := rfl
@[simp] theorem writeSlot_trace (d p s) : (writeSlot d p s).trace = s.trace := rfl
@[simp] theorem writeSlot_commands (d p s) : (writeSlot d p s).commands = s.commands := rfl
@[simp] theorem writeSlot_responses (d p s) : (writeSlot d p s).responses = s.responses := rfl

@[simp] theorem respond_cfg (e c x s) : (respond e c x s).cfg = s.cfg := rfl
@[simp] theorem respond_slots (e c x s) : (respond e c x s).slots = s.slots := rfl
@[simp] theorem respond_lines (e c x s) : (respond e c x s).lines = s.lines := rfl
@[simp] theorem respond_sr (e c x s) : (respond e c x s).sr = s.sr := rfl
@[simp] theorem respond_plant (e c x s) : (respond e c x s).plant = s.plant := rfl
@[simp] theorem respond_trace (e c x s) : (respond e c x s).trace = s.trace := rfl
@[simp] theorem respond_commands (e c x s) : (respond e c x s).commands = s.commands := rfl
@[simp] theorem respond_responses (e c x s) :
    (respond e c x s).responses = s.responses ++ [responseWord e c x] := rfl

/-- An error leaves everything but the response port as it was (60_exceptions.md R244). -/
theorem raise_eq (e s) : raise e s = { s with responses := s.responses ++ [responseWord e false 0#16] } := rfl

@[simp] theorem takeCommand_cfg (r s) : (takeCommand r s).cfg = s.cfg := rfl
@[simp] theorem takeCommand_slots (r s) : (takeCommand r s).slots = s.slots := rfl
@[simp] theorem takeCommand_lines (r s) : (takeCommand r s).lines = s.lines := rfl
@[simp] theorem takeCommand_sr (r s) : (takeCommand r s).sr = s.sr := rfl
@[simp] theorem takeCommand_plant (r s) : (takeCommand r s).plant = s.plant := rfl
@[simp] theorem takeCommand_trace (r s) : (takeCommand r s).trace = s.trace := rfl
@[simp] theorem takeCommand_commands (r s) : (takeCommand r s).commands = r := rfl
@[simp] theorem takeCommand_responses (r s) : (takeCommand r s).responses = s.responses := rfl

@[simp] theorem emit_cfg (s e) : (emit s e).cfg = s.cfg := by cases e <;> rfl
@[simp] theorem emit_slots (s e) : (emit s e).slots = s.slots := by cases e <;> rfl
@[simp] theorem emit_plant (s e) : (emit s e).plant = s.plant := by cases e <;> rfl
@[simp] theorem emit_trace (s e) : (emit s e).trace = s.trace ++ [e] := by cases e <;> rfl
@[simp] theorem emit_commands (s e) : (emit s e).commands = s.commands := by cases e <;> rfl
@[simp] theorem emit_responses (s e) : (emit s e).responses = s.responses := by cases e <;> rfl

@[simp] theorem perform_nil (s) : perform [] s = s := rfl
@[simp] theorem perform_cons (e es s) : perform (e :: es) s = perform es (emit s e) := rfl
theorem perform_append (es fs s) : perform (es ++ fs) s = perform fs (perform es s) := by
  simp [perform, List.foldl_append]

@[simp] theorem perform_cfg (es s) : (perform es s).cfg = s.cfg := by
  induction es generalizing s <;> simp [*]
@[simp] theorem perform_slots (es s) : (perform es s).slots = s.slots := by
  induction es generalizing s <;> simp [*]
@[simp] theorem perform_plant (es s) : (perform es s).plant = s.plant := by
  induction es generalizing s <;> simp [*]
@[simp] theorem perform_trace (es s) : (perform es s).trace = s.trace ++ es := by
  induction es generalizing s <;> simp [*]
@[simp] theorem perform_commands (es s) : (perform es s).commands = s.commands := by
  induction es generalizing s <;> simp [*]
@[simp] theorem perform_responses (es s) : (perform es s).responses = s.responses := by
  induction es generalizing s <;> simp [*]

/-- Everything a sequence of events can do: it moves lines and shift register and is recorded. -/
theorem perform_eq (es s) : perform es s =
    { s with lines := (perform es s).lines, sr := (perform es s).sr, trace := s.trace ++ es } := by
  apply state_ext <;> simp

/-- Everything a strobe's reaction of the display can do: at most one row of the plant changes. -/
theorem strobePlant_eq (d ms s) : strobePlant d ms s = { s with plant := (strobePlant d ms s).plant } := by
  unfold strobePlant; split <;> rfl

@[simp] theorem strobePlant_cfg (d ms s) : (strobePlant d ms s).cfg = s.cfg := by rw [strobePlant_eq]
@[simp] theorem strobePlant_slots (d ms s) : (strobePlant d ms s).slots = s.slots := by rw [strobePlant_eq]
@[simp] theorem strobePlant_lines (d ms s) : (strobePlant d ms s).lines = s.lines := by rw [strobePlant_eq]
@[simp] theorem strobePlant_sr (d ms s) : (strobePlant d ms s).sr = s.sr := by rw [strobePlant_eq]
@[simp] theorem strobePlant_trace (d ms s) : (strobePlant d ms s).trace = s.trace := by rw [strobePlant_eq]
@[simp] theorem strobePlant_commands (d ms s) : (strobePlant d ms s).commands = s.commands := by
  rw [strobePlant_eq]
@[simp] theorem strobePlant_responses (d ms s) : (strobePlant d ms s).responses = s.responses := by
  rw [strobePlant_eq]

/-- A slot read after a write of a slot (10_state.md R22, R54). -/
theorem slotAt_writeSlot (d p s e) : slotAt (writeSlot d p s) e =
    if e = d ∧ d < s.slots.length then some p else slotAt s e := by
  unfold slotAt writeSlot
  by_cases h : e = d
  · subst h
    by_cases hl : e < s.slots.length
    · simp [hl]
    · simp [hl]
  · simp [List.getElem?_set_ne (Ne.symm h), h]

/-- A slot read depends on the slots alone. -/
theorem slotAt_congr {s t : State} (h : s.slots = t.slots) (d) : slotAt s d = slotAt t d := by
  unfold slotAt; rw [h]

end Sys2Proof.Machine
end

