-- ==== Sys2Proof/Laws/Levels.lean ====
section
/-! SUPPORT. What the event sequences do to the lines and the shift register: one lemma per sequence. -/

namespace Sys2Proof.Machine

/-- A line write seen on the levels alone. -/
def levelsAt (x : Lines × ShiftReg) : Event → Lines × ShiftReg
  | .write l b => (putLine x.1 l b, shiftRegAt x.1 x.2 l b)
  | .wait _    => x

/-- The levels after a sequence of events: they depend on the levels before it and on nothing else. -/
def levelsAfter (es : List Event) (x : Lines × ShiftReg) : Lines × ShiftReg := es.foldl levelsAt x

@[simp] theorem levelsAfter_nil (x) : levelsAfter [] x = x := rfl
@[simp] theorem levelsAfter_cons (e es x) : levelsAfter (e :: es) x = levelsAfter es (levelsAt x e) := rfl
theorem levelsAfter_append (es fs x) : levelsAfter (es ++ fs) x = levelsAfter fs (levelsAfter es x) := by
  simp [levelsAfter, List.foldl_append]

theorem emit_levels (s e) : ((emit s e).lines, (emit s e).sr) = levelsAt (s.lines, s.sr) e := by cases e <;> rfl

theorem perform_levels (es s) :
    ((perform es s).lines, (perform es s).sr) = levelsAfter es (s.lines, s.sr) := by
  induction es generalizing s with
  | nil => rfl
  | cons e es ih => rw [perform_cons, ih, levelsAfter_cons, emit_levels]

theorem perform_lines (es s) : (perform es s).lines = (levelsAfter es (s.lines, s.sr)).1 :=
  congrArg Prod.fst (perform_levels es s)
theorem perform_sr (es s) : (perform es s).sr = (levelsAfter es (s.lines, s.sr)).2 :=
  congrArg Prod.snd (perform_levels es s)

/-- Bit `j` after `setBit` at `i`. -/
theorem getLsbD_setBit {w : Nat} (v : BitVec w) (i : Nat) (b : Bool) (j : Nat) :
    (setBit v i b).getLsbD j = if j = i ∧ j < w then b else v.getLsbD j := by
  unfold setBit
  by_cases hj : j < w
  · cases b <;> by_cases h : i = j <;> simp [h, hj, eq_comm]
  · have hv : v.getLsbD j = false := BitVec.getLsbD_of_ge v j (Nat.le_of_not_lt hj)
    cases b <;> simp [hj, hv, BitVec.getLsbD_twoPow]
    intro h1 h2; omega

theorem getElem_setBit {w : Nat} (v : BitVec w) (i : Nat) (b : Bool) (j : Nat) (hj : j < w) :
    (setBit v i b)[j] = if j = i then b else v[j] := by
  have h := getLsbD_setBit v i b j
  simpa [hj] using h

/-! ## The direct back end -/

/-- The levels of the segment lines after the segments of `l` have been driven or released (40_segment.md R101,
R102): bit by bit, a visited segment's pair is its drive, another's is as before. -/
theorem levelsAfter_segments (diff p : Pattern) (l : List Seg) (x : Lines × ShiftReg) :
    ∃ a b : Pattern,
      levelsAfter (l.flatMap fun s => if diff[s] then driveEvents s p[s] else releaseEvents s) x =
        ({ x.1 with setL := a, clrL := b }, x.2) ∧
      ∀ j : Nat, a.getLsbD j = (if ∃ k ∈ l, k.val = j then (p &&& diff).getLsbD j else x.1.setL.getLsbD j) ∧
        b.getLsbD j = (if ∃ k ∈ l, k.val = j then (~~~p &&& diff).getLsbD j else x.1.clrL.getLsbD j) := by
  induction l generalizing x with
  | nil => exact ⟨x.1.setL, x.1.clrL, rfl, by simp⟩
  | cons k l ih =>
    rw [List.flatMap_cons, levelsAfter_append]
    obtain ⟨a, b, h, hab⟩ := ih (levelsAfter (if diff[k] then driveEvents k p[k] else releaseEvents k) x)
    refine ⟨a, b, ?_, fun j => ?_⟩
    · rw [h]
      by_cases hd : diff[k] <;> by_cases hp : p[k] <;>
        simp [hd, hp, driveEvents, releaseEvents, levelsAt, putLine, shiftRegAt]
    · obtain ⟨ha, hb⟩ := hab j
      rw [ha, hb]
      by_cases hm : ∃ k' ∈ l, k'.val = j
      · simp [hm]
      · rw [if_neg hm, if_neg hm]
        by_cases hj : k.val = j
        · have hj7 : j < 7 := hj ▸ k.isLt
          have hd : diff[k] = diff.getLsbD j := by subst hj; rfl
          have hp : p[k] = p.getLsbD j := by subst hj; rfl
          rw [hd, hp]
          rw [BitVec.getLsbD_eq_getElem hj7, BitVec.getLsbD_eq_getElem hj7]
          cases hd' : diff[j] <;> cases hp' : p[j] <;>
            simp [hd', hp', hj, hj7, driveEvents, releaseEvents, levelsAt, putLine, getElem_setBit]
        · have hne : ¬ ∃ k' ∈ k :: l, k'.val = j := by
            rintro ⟨k', hk', rfl⟩
            rcases List.mem_cons.1 hk' with rfl | hk'
            · exact hj rfl
            · exact hm ⟨k', hk', rfl⟩
          rw [if_neg hne, if_neg hne]
          have hj' : ¬ (j = k.val ∧ j < 7) := fun h => hj h.1.symm
          by_cases hd : diff[k] <;> by_cases hp : p[k] <;>
            simp [hd, hp, driveEvents, releaseEvents, levelsAt, putLine, getLsbD_setBit, hj']

theorem mem_segments (k : Seg) : k ∈ segments := by revert k; decide

/-- `update_direct`'s 14 writes leave `SET = p & D` and `CLR = ~p & D` (41_digit_controller.md R125). -/
theorem levelsAfter_updateEvents (diff p : Pattern) (x : Lines × ShiftReg) :
    levelsAfter (updateEvents diff p) x =
      ({ x.1 with setL := p &&& diff, clrL := ~~~p &&& diff }, x.2) := by
  obtain ⟨a, b, h, hab⟩ := levelsAfter_segments diff p segments x
  have hm : ∀ j, j < 7 → ∃ k ∈ segments, k.val = j := fun j hj => ⟨⟨j, hj⟩, mem_segments _, rfl⟩
  have ha : a = p &&& diff := BitVec.eq_of_getLsbD_eq fun j hj => by rw [(hab j).1, if_pos (hm j hj)]
  have hb : b = ~~~p &&& diff := BitVec.eq_of_getLsbD_eq fun j hj => by rw [(hab j).2, if_pos (hm j hj)]
  rw [updateEvents, h, ha, hb]

theorem clearEvents_eq : clearEvents = updateEvents 0#7 0#7 := by decide

/-- `clear_pins_direct` releases every segment (41_digit_controller.md R128). -/
theorem levelsAfter_clearEvents (x : Lines × ShiftReg) :
    levelsAfter clearEvents x = ({ x.1 with setL := 0#7, clrL := 0#7 }, x.2) := by
  rw [clearEvents_eq, levelsAfter_updateEvents]; simp

/-! ## The serial back end -/

theorem getLsbD_shiftIn (v : Mask) (b : Bool) (j : Nat) :
    (v.extractLsb' 0 15 ++ BitVec.ofBool b).getLsbD j = if j = 0 then b else (decide (j < 16) && v.getLsbD (j - 1)) := by
  rw [BitVec.getLsbD_append]
  rcases j with _ | j
  · simp
  · by_cases h : j < 15
    · have h' : j + 1 < 16 := by omega
      simp [h, h']
    · have h' : ¬ j + 1 < 16 := by omega
      simp [h, h']

/-- Clocking in the bits `bs`, first one first: the last one stands in bit 0 (42_serial_expander.md R156). -/
theorem levelsAfter_clocks (bs : List Bool) (l : Lines) (r : ShiftReg) (hc : l.serClk = false) :
    ∃ v d, levelsAfter (bs.flatMap clockEvents) (l, r) =
        ({ l with serData := d }, { r with stage := v }) ∧
      d = bs.getLast?.getD l.serData ∧
      ∀ j, j < 16 → v.getLsbD j = if h : j < bs.length then bs[bs.length - 1 - j] else r.stage.getLsbD (j - bs.length) := by
  induction bs generalizing l r with
  | nil => exact ⟨r.stage, l.serData, by simp, by simp, by simp⟩
  | cons b bs ih =>
    obtain ⟨v, d, h, hd, hv⟩ := ih { l with serData := b }
      { r with stage := r.stage.extractLsb' 0 15 ++ BitVec.ofBool b } hc
    refine ⟨v, d, ?_, ?_, fun j hj => ?_⟩
    · rw [List.flatMap_cons, levelsAfter_append]
      have : levelsAfter (clockEvents b) (l, r) = ({ l with serData := b },
          { r with stage := r.stage.extractLsb' 0 15 ++ BitVec.ofBool b }) := by
        cases l; simp_all [clockEvents, levelsAt, putLine, shiftRegAt]
      rw [this, h]
    · rw [hd]; cases bs <;> simp [List.getLast?_cons]
    · rw [hv j hj]
      by_cases h1 : j < bs.length
      · have h2 : j < (b :: bs).length := by simp; omega
        rw [dif_pos h1, dif_pos h2]
        have : (b :: bs).length - 1 - j = (bs.length - 1 - j) + 1 := by simp; omega
        simp only [this, List.getElem_cons_succ]
      · rw [dif_neg h1, getLsbD_shiftIn]
        by_cases h2 : j = bs.length
        · subst h2; simp
        · have h3 : ¬ j < (b :: bs).length := by simp; omega
          rw [dif_neg h3, if_neg (by omega)]
          have h4 : j - bs.length < 16 := by omega
          simp only [h4, decide_true, Bool.true_and, List.length_cons]
          congr 1

theorem shiftOrder_getElem (i : Fin 16) :
    shiftOrder[shiftOrder.length - 1 - i.val]'(by simp [shiftOrder]; omega) = i.val := by
  revert i; decide

/-- `shift_out_and_latch(w)` from idle clock and latch lines: stages and outputs hold `w`, `SER_DATA` its bit 0,
whatever they held before (42_serial_expander.md R155). -/
theorem levelsAfter_shiftEvents (w : Mask) (l : Lines) (r : ShiftReg)
    (hc : l.serClk = false) (hl : l.serLatch = false) :
    levelsAfter (shiftEvents w) (l, r) = ({ l with serData := w.getLsbD 0 }, ⟨w, w⟩) := by
  have hmap : shiftOrder.flatMap (fun i => clockEvents (w.getLsbD i)) =
      (shiftOrder.map w.getLsbD).flatMap clockEvents := by simp [List.flatMap_map]
  obtain ⟨v, d, h, hd, hv⟩ := levelsAfter_clocks (shiftOrder.map w.getLsbD) l r hc
  have hvw : v = w := BitVec.eq_of_getLsbD_eq fun j hj => by
    rw [hv j hj, dif_pos (by simpa [shiftOrder] using hj)]
    simp only [List.getElem_map, List.length_map]
    congr 1
    exact shiftOrder_getElem ⟨j, hj⟩
  have hd0 : d = w.getLsbD 0 := by rw [hd]; rfl
  rw [shiftEvents, levelsAfter_append, hmap, h, hvw, hd0]
  cases l; simp_all [levelsAt, putLine, shiftRegAt]

/-! ## The selector -/

/-- A one-hot strobe leaves its enable low and nothing else changed (43_selector.md R181). -/
theorem levelsAfter_strobeOneHot (d ms : Nat) (x : Lines × ShiftReg) :
    levelsAfter (strobeOneHotEvents d ms) x = ({ x.1 with en := x.1.en.set d false }, x.2) := by
  simp [strobeOneHotEvents, levelsAt, putLine, shiftRegAt]

theorem levelsAfter_addr (f : Nat → Bool) (js : List Nat) (x : Lines × ShiftReg) :
    levelsAfter (js.map fun j => .write (.addr j) (f j)) x =
      ({ x.1 with addr := js.foldl (fun a j => a.set j (f j)) x.1.addr }, x.2) := by
  induction js generalizing x with
  | nil => rfl
  | cons j js ih => rw [List.map_cons, levelsAfter_cons, ih]; rfl

theorem foldl_set_range (f : Nat → Bool) (k : Nat) (a : List Bool) :
    (List.range k).foldl (fun a j => a.set j (f j)) a =
      (List.range a.length).map fun j => if j < k then f j else a[j]?.getD false := by
  induction k with
  | zero =>
    apply List.ext_getElem (by simp)
    intro i h1 h2; simp at h1; simp [h1]
  | succ k ih =>
    rw [List.range_succ, List.foldl_append, ih]
    apply List.ext_getElem (by simp)
    intro i h1 h2
    have hi : i < a.length := by simpa using h2
    simp only [List.foldl_cons, List.foldl_nil, List.getElem_set, List.getElem_map, List.getElem_range]
    by_cases h : k = i
    · subst h; simp
    · have : (i < k + 1) = (i < k) := by simp; omega
      simp [h, this]

/-- Writing all `K` address lines leaves bit `j` of the index on line `j` (43_selector.md R182). -/
theorem foldl_set_all (f : Nat → Bool) (a : List Bool) :
    (List.range a.length).foldl (fun a j => a.set j (f j)) a = (List.range a.length).map f := by
  rw [foldl_set_range]
  exact List.map_congr_left fun j hj => by simp [List.mem_range.1 hj]

/-- A binary strobe leaves the index on the address lines and the enable low (43_selector.md R182). -/
theorem levelsAfter_strobeBinary (k d ms : Nat) (x : Lines × ShiftReg) (hk : x.1.addr.length = k) :
    levelsAfter (strobeBinaryEvents k d ms) x =
      ({ x.1 with addr := (List.range k).map d.testBit, enable := false }, x.2) := by
  subst hk
  rw [strobeBinaryEvents, levelsAfter_append, levelsAfter_addr, foldl_set_all]
  rfl

end Sys2Proof.Machine
end

