-- ==== Sys2Proof/Laws/Contract.lean ====
section
/-! SUPPORT. The ledger of the consistency contract, entry by entry (spec/45_display_plant.md R227). -/

namespace Sys2Proof.Machine

theorem coilDriven_eq_false (s : State) (k : Seg) : coilDriven s k = false ↔ coilDrive s k = (false, false) := by
  simp [coilDriven]

/-- Which segments are indeterminate after a strobe: the driven ones of a wired digit follow the hold, the others are
as they were. -/
theorem mem_blurredAfterStrobe (s : State) (g : Ledger) (e ms d : Nat) (k : Seg) :
    (d, k) ∈ blurredAfterStrobe s g e ms ↔
      if e < s.cfg.digits ∧ d = e ∧ coilDriven s k = true then ¬ s.cfg.tFlipMs ≤ ms else (d, k) ∈ g.blurred := by
  unfold blurredAfterStrobe
  by_cases he : e < s.cfg.digits
  · rw [if_pos he, List.mem_append]
    by_cases hd : d = e
    · subst hd
      by_cases hk : coilDriven s k = true <;> by_cases hf : s.cfg.tFlipMs ≤ ms <;> simp [he, hk, hf, mem_segments]
    · have hd' : ¬ e = d := fun h => hd h.symm
      by_cases hf : s.cfg.tFlipMs ≤ ms <;> simp [he, hd, hd', hf]
  · rw [if_neg he]; simp [he]

/-- Which segments are indeterminate after a render pass: those that were, but the ones the pass drives. -/
theorem mem_blurredAfterRender (s : State) (g : Ledger) (n d : Nat) (k : Seg) :
    (d, k) ∈ blurredAfterRender s g n ↔
      (d, k) ∈ g.blurred ∧ (diffOf (slotAt s d) (encodeDigit s.cfg (digitAt n d)))[k] = false := by
  simp [blurredAfterRender, List.mem_filter]

/-- A digit with no pending update was last strobed to its slot. -/
theorem strobedTo_of_not_pending {g : Ledger} (s : State) {d : Nat} (h : ∀ q, g.pending ≠ some (d, q)) :
    strobedTo g s d = slotAt s d := by
  unfold strobedTo
  cases hg : g.pending with
  | none => rfl
  | some x =>
    obtain ⟨e, q⟩ := x
    exact if_neg (by rintro rfl; exact h q hg)

/-- The pending digit was last strobed to what its slot held before. -/
theorem strobedTo_of_pending {g : Ledger} (s : State) {d : Nat} {q : Option Pattern} (h : g.pending = some (d, q)) :
    strobedTo g s d = q := by
  simp [strobedTo, h]

/-- The protocol of a command that succeeds is its three conditions. -/
theorem keepsProtocol_iff {s : State} {g : Ledger} {i : Instr} (h : errorOf s.cfg i = 0#4) :
    keepsProtocol s g i = true ↔ keepsP1 s g i = true ∧ keepsP2 s g i = true ∧ keepsP3 s i = true := by
  simp [keepsProtocol, h, and_assoc]

end Sys2Proof.Machine
end

