-- ==== Sys2Proof/Laws/Units.lean ====
section
/-! SUPPORT. What the operations of the units can do: one spec lemma each, for both back ends and both selectors. -/

namespace Sys2Proof.Machine

/-! ## The diff and the pulse mask -/

theorem changedOf_eq (old : Option Pattern) (p : Pattern) : changedOf old p = decide (old ≠ some p) := by
  cases old with
  | none => simp [changedOf, diffOf]
  | some q =>
    have h : (q ^^^ p = 0#7) ↔ q = p := by
      constructor
      · intro h
        apply BitVec.eq_of_getLsbD_eq
        intro i hi
        have := congrArg (fun v => v.getLsbD i) h
        simp at this
        simpa using this
      · rintro rfl; simp
    simp only [changedOf, diffOf, bne, Option.some.injEq, ne_eq]
    by_cases hq : q = p
    · simp [hq]
    · have hx : q ^^^ p ≠ 0#7 := fun hx => hq (h.1 hx)
      simp [hq, hx]

/-- A segment's bit position in the mask: its set line if it is to light, its clear line if not
(42_serial_expander.md R153). -/
def maskPos (m : SrMap) (p : Pattern) (k : Seg) : Fin 16 := if p[k] then m.setPos[k] else m.clrPos[k]

theorem getLsbD_maskFold (m : SrMap) (d p : Pattern) (l : List Seg) (v : Mask) (i : Nat) :
    (l.foldl (fun mask s =>
      if d[s] then
        if p[s] then setBit mask m.setPos[s].val true else setBit mask m.clrPos[s].val true
      else mask) v).getLsbD i =
    (v.getLsbD i || l.any fun k => d[k] && decide (i = (maskPos m p k).val)) := by
  induction l generalizing v with
  | nil => simp
  | cons k l ih =>
    rw [List.foldl_cons, ih, List.any_cons, ← Bool.or_assoc]
    have he : (if d[k] then
          if p[k] then setBit v m.setPos[k].val true else setBit v m.clrPos[k].val true
        else v) = if d[k] then setBit v (maskPos m p k).val true else v := by
      unfold maskPos; split_ifs <;> rfl
    rw [he]
    congr 1
    generalize maskPos m p k = x
    by_cases hd : d[k] = true
    · by_cases hi : i = x.val <;> simp [hd, getLsbD_setBit, hi]
    · simp [hd]

/-- Bit `i` of the pulse mask: some driven segment has its target line there (42_serial_expander.md R153). -/
theorem getLsbD_pulseMask (m : SrMap) (old : Option Pattern) (p : Pattern) (i : Nat) :
    (pulseMask m old p).getLsbD i = segments.any fun k => (diffOf old p)[k] && decide (i = (maskPos m p k).val) := by
  rw [pulseMask, getLsbD_maskFold]; simp

theorem pulseMask_ne_zero (m : SrMap) (old : Option Pattern) (p : Pattern) :
    (pulseMask m old p != 0#16) = changedOf old p := by
  unfold changedOf
  by_cases h : diffOf old p = 0#7
  · have : pulseMask m old p = 0#16 := BitVec.eq_of_getLsbD_eq fun i _ => by
      rw [getLsbD_pulseMask, h]; simp
    simp [this, h]
  · have hk : ∃ k : Seg, (diffOf old p)[k] = true := by
      by_contra hn
      rw [not_exists] at hn
      apply h
      apply BitVec.eq_of_getLsbD_eq
      intro i hi
      have := hn ⟨i, hi⟩
      simpa [hi] using this
    obtain ⟨k, hk⟩ := hk
    have : pulseMask m old p ≠ 0#16 := by
      intro h0
      have hb := getLsbD_pulseMask m old p (maskPos m p k).val
      rw [h0] at hb
      have : (segments.any fun j => (diffOf old p)[j] && decide ((maskPos m p k).val = (maskPos m p j).val)) = true := by
        rw [List.any_eq_true]; exact ⟨k, mem_segments k, by simp [hk]⟩
      rw [this] at hb; simp at hb
    rw [bne_iff_ne.2 this, bne_iff_ne.2 h]

/-- The 14 positions of an accepted map are distinct (42_serial_expander.md R152). -/
theorem srMap_distinct {m : SrMap} (h : srMapAccepted m = true) :
    (∀ j k : Seg, m.setPos[j] = m.setPos[k] → j = k) ∧ (∀ j k : Seg, m.clrPos[j] = m.clrPos[k] → j = k) ∧
    ∀ j k : Seg, m.setPos[j] ≠ m.clrPos[k] := by
  have hn : (m.setPos.toList ++ m.clrPos.toList).Nodup := by
    unfold srMapAccepted at h
    exact of_decide_eq_true (Bool.and_eq_true_iff.1 h).2
  rw [List.nodup_append] at hn
  obtain ⟨h1, h2, h3⟩ := hn
  have inj : ∀ v : Vector (Fin 16) 7, v.toList.Nodup → ∀ j k : Seg, v[j] = v[k] → j = k := by
    intro v hv j k hjk
    have := (List.Nodup.getElem_inj_iff hv (i := j.val) (hi := by simp) (j := k.val) (hj := by simp)).1 (by simpa using hjk)
    exact Fin.ext this
  refine ⟨inj _ h1, inj _ h2, fun j k he => ?_⟩
  exact h3 (m.setPos[j]) (by simp [Vector.mem_toList_iff]) (m.clrPos[k]) (by simp [Vector.mem_toList_iff]) he

/-- With distinct positions the mask drives each segment to its target, or releases it (40_segment.md R106). -/
theorem pulseMask_drive {m : SrMap} (h : srMapAccepted m = true) (old : Option Pattern) (p : Pattern) (k : Seg) :
    ((pulseMask m old p).getLsbD (m.setPos[k]).val, (pulseMask m old p).getLsbD (m.clrPos[k]).val) =
      if (diffOf old p)[k] then (p[k], !p[k]) else (false, false) := by
  obtain ⟨hs, hc, hsc⟩ := srMap_distinct h
  have e1 : (pulseMask m old p).getLsbD (m.setPos[k]).val = ((diffOf old p)[k] && p[k]) := by
    rw [getLsbD_pulseMask, Bool.eq_iff_iff, List.any_eq_true]
    constructor
    · rintro ⟨j, -, hj⟩
      obtain ⟨hd, hj⟩ := Bool.and_eq_true_iff.1 hj
      have he := Fin.ext (of_decide_eq_true hj)
      unfold maskPos at he
      by_cases hp : p[j] = true
      · rw [if_pos hp] at he
        have := hs _ _ he; subst this; simp [hd, hp]
      · rw [if_neg hp] at he
        exact absurd he (hsc _ _)
    · intro hk
      simp only [Bool.and_eq_true] at hk
      exact ⟨k, mem_segments k, by simp [maskPos, hk.1, hk.2]⟩
  have e2 : (pulseMask m old p).getLsbD (m.clrPos[k]).val = ((diffOf old p)[k] && !p[k]) := by
    rw [getLsbD_pulseMask, Bool.eq_iff_iff, List.any_eq_true]
    constructor
    · rintro ⟨j, -, hj⟩
      obtain ⟨hd, hj⟩ := Bool.and_eq_true_iff.1 hj
      have he := Fin.ext (of_decide_eq_true hj)
      unfold maskPos at he
      by_cases hp : p[j] = true
      · rw [if_pos hp] at he
        exact absurd he.symm (hsc _ _)
      · rw [if_neg hp] at he
        have := hc _ _ he; subst this
        simp only [hd, Bool.true_and]; simpa using hp
    · intro hk
      simp only [Bool.and_eq_true, Bool.not_eq_true'] at hk
      exact ⟨k, mem_segments k, by simp [maskPos, hk.1, hk.2]⟩
  rw [e1, e2]
  by_cases hd : (diffOf old p)[k] = true <;> simp [hd]

/-! ## Updating a slot -/

/-- The events of an update of a slot that holds `old` (41_digit_controller.md R125, 42_serial_expander.md R154). -/
def slotEvents (b : Backend) (old : Option Pattern) (p : Pattern) : List Event :=
  match b with
  | .direct   => updateEvents (diffOf old p) p
  | .serial m => shiftEvents (pulseMask m old p)

/-- The `DATA` of an update (30_encoding.md R82). -/
def slotData (b : Backend) (old : Option Pattern) (p : Pattern) : Mask :=
  match b with
  | .direct   => 0#16
  | .serial m => pulseMask m old p

/-- Everything an update of a slot can do: its events, the write of that slot, `changed` and `DATA`. -/
theorem updateSlot_eq (d : Nat) (p : Pattern) (s : State) : updateSlot d p s =
    (decide (slotAt s d ≠ some p), slotData s.cfg.backend (slotAt s d) p,
      writeSlot d p (perform (slotEvents s.cfg.backend (slotAt s d) p) s)) := by
  rw [← changedOf_eq]
  unfold updateSlot slotEvents slotData
  cases s.cfg.backend with
  | direct => rfl
  | serial m => simp only [updateSerial, pulseMask_ne_zero]; rfl

/-- Everything `clear_pins` can do: its events. -/
theorem releaseAll_eq (s : State) : releaseAll s =
    perform (match s.cfg.backend with | .direct => clearEvents | .serial _ => shiftEvents 0#16) s := by
  unfold releaseAll; cases s.cfg.backend <;> rfl

@[simp] theorem releaseAll_cfg (s) : (releaseAll s).cfg = s.cfg := by rw [releaseAll_eq]; simp
@[simp] theorem releaseAll_slots (s) : (releaseAll s).slots = s.slots := by rw [releaseAll_eq]; simp
@[simp] theorem releaseAll_plant (s) : (releaseAll s).plant = s.plant := by rw [releaseAll_eq]; simp
@[simp] theorem releaseAll_commands (s) : (releaseAll s).commands = s.commands := by rw [releaseAll_eq]; simp
@[simp] theorem releaseAll_responses (s) : (releaseAll s).responses = s.responses := by rw [releaseAll_eq]; simp

@[simp] theorem strobe_cfg (d ms s) : (strobe d ms s).cfg = s.cfg := by simp [strobe]
@[simp] theorem strobe_slots (d ms s) : (strobe d ms s).slots = s.slots := by simp [strobe]
@[simp] theorem strobe_trace (d ms s) : (strobe d ms s).trace = s.trace ++ strobeEvents s.cfg d ms := by simp [strobe]
@[simp] theorem strobe_commands (d ms s) : (strobe d ms s).commands = s.commands := by simp [strobe]
@[simp] theorem strobe_responses (d ms s) : (strobe d ms s).responses = s.responses := by simp [strobe]

/-- A strobe of the block's own selector lines, its effect on the levels (43_selector.md R181, R182). -/
theorem levelsAfter_strobe (c : Config) (d ms : Nat) (x : Lines × ShiftReg)
    (ha : ∀ k, c.selector = .binary k → x.1.addr.length = k) :
    levelsAfter (strobeEvents c d ms) x =
      (match c.selector with
       | .oneHot   => { x.1 with en := x.1.en.set d false }
       | .binary k => { x.1 with addr := (List.range k).map d.testBit, enable := false }, x.2) := by
  unfold strobeEvents
  cases h : c.selector with
  | oneHot => exact levelsAfter_strobeOneHot d ms x
  | binary k => exact levelsAfter_strobeBinary k d ms x (ha k h)

/-- The coil drive depends on the segment lines, the register's outputs and the configuration alone. -/
theorem coilDrive_congr {s t : State} (hc : s.cfg = t.cfg) (h1 : s.lines.setL = t.lines.setL)
    (h2 : s.lines.clrL = t.lines.clrL) (h3 : s.sr = t.sr) (k : Seg) : coilDrive s k = coilDrive t k := by
  unfold coilDrive; rw [hc, h1, h2, h3]

/-- A strobe does not touch the coil lines (43_selector.md R180). -/
theorem strobe_levels (d ms : Nat) (s : State) (ha : ∀ k, s.cfg.selector = .binary k → s.lines.addr.length = k) :
    ((strobe d ms s).lines, (strobe d ms s).sr) =
      (match s.cfg.selector with
       | .oneHot   => { s.lines with en := s.lines.en.set d false }
       | .binary k => { s.lines with addr := (List.range k).map d.testBit, enable := false }, s.sr) := by
  unfold strobe
  rw [strobePlant_lines, strobePlant_sr, perform_levels, levelsAfter_strobe _ _ _ _ (by simpa using ha)]

/-- The display after a strobe, entry by entry (45_display_plant.md R222, R224, R226). -/
theorem plantAt_strobePlant (d ms : Nat) (s : State) (hp : s.plant.length = s.cfg.digits) (e : Nat) (k : Seg) :
    plantAt (strobePlant d ms s) e k =
      if e = d ∧ d < s.cfg.digits then flipSegment (coilDrive s k) (decide (s.cfg.tFlipMs ≤ ms)) (plantAt s d k)
      else plantAt s e k := by
  have ht : ∀ f : Seg → Optical, (tabulate f)[k] = f k := by
    intro f; fin_cases k <;> rfl
  unfold strobePlant
  by_cases hd : d < s.cfg.digits
  · rw [if_pos hd]
    by_cases he : e = d
    · subst he
      have : e < s.plant.length := hp ▸ hd
      simp [plantAt, this, hd, ht]
    · simp [plantAt, List.getElem?_set_ne (Ne.symm he), he]
  · simp [hd]

end Sys2Proof.Machine
end

