-- ==== Sys2Proof/Laws/Invariant.lean ====
section
/-! SUPPORT. Each operation of the units keeps the invariant, and what it makes of the coil drive and the display. -/

namespace Sys2Proof.Machine

/-- The invariant reads the configuration, the lengths of slots and plant, the lines and the shift register. -/
theorem BlockInv_congr {s t : State} (hc : t.cfg = s.cfg) (h1 : t.slots.length = s.slots.length)
    (h2 : t.plant.length = s.plant.length) (h3 : t.lines = s.lines) (h4 : t.sr = s.sr) (h : BlockInv s) : BlockInv t := by
  have hd : ∀ k, coilDrive t k = coilDrive s k := fun k => coilDrive_congr hc (by rw [h3]) (by rw [h3]) h4 k
  unfold BlockInv coilsSafe unownedLow at *
  simp only [hd, hc, h1, h2, h3, h4]; exact h

theorem BlockInv_respond (e c x s) (h : BlockInv s) : BlockInv (respond e c x s) := BlockInv_congr rfl rfl rfl rfl rfl h
theorem BlockInv_takeCommand (r s) (h : BlockInv s) : BlockInv (takeCommand r s) := BlockInv_congr rfl rfl rfl rfl rfl h
theorem BlockInv_wait (n s) (h : BlockInv s) : BlockInv (perform [.wait n] s) := BlockInv_congr rfl rfl rfl rfl rfl h

theorem accepted_map {c : Config} {m : SrMap} (h : accepted c = true) (hb : c.backend = .serial m) :
    srMapAccepted m = true := by
  unfold accepted at h; rw [hb] at h
  simp only [Bool.and_eq_true] at h
  exact h.1.2

/-- The levels of the coil lines after an update, from idle serial lines: the lines and the register
(41_digit_controller.md R125, 42_serial_expander.md R154). -/
theorem updateSlot_levels (d : Nat) (p : Pattern) (s : State) (hc : s.lines.serClk = false)
    (hl : s.lines.serLatch = false) :
    ((updateSlot d p s).2.2.lines, (updateSlot d p s).2.2.sr) =
      match s.cfg.backend with
      | .direct   => ({ s.lines with setL := p &&& diffOf (slotAt s d) p,
                                     clrL := ~~~p &&& diffOf (slotAt s d) p }, s.sr)
      | .serial m => ({ s.lines with serData := (pulseMask m (slotAt s d) p).getLsbD 0 },
                      ⟨pulseMask m (slotAt s d) p, pulseMask m (slotAt s d) p⟩) := by
  rw [updateSlot_eq, writeSlot_lines, writeSlot_sr, perform_levels]
  unfold slotEvents
  cases s.cfg.backend with
  | direct => exact levelsAfter_updateEvents _ _ _
  | serial m => exact levelsAfter_shiftEvents _ _ _ hc hl

theorem updateSlot_slots (d p s) : (updateSlot d p s).2.2.slots = s.slots.set d (some p) := by
  rw [updateSlot_eq]; simp
theorem updateSlot_cfg (d p s) : (updateSlot d p s).2.2.cfg = s.cfg := by rw [updateSlot_eq]; simp
theorem updateSlot_plant (d p s) : (updateSlot d p s).2.2.plant = s.plant := by rw [updateSlot_eq]; simp
theorem updateSlot_commands (d p s) : (updateSlot d p s).2.2.commands = s.commands := by rw [updateSlot_eq]; simp
theorem updateSlot_responses (d p s) : (updateSlot d p s).2.2.responses = s.responses := by rw [updateSlot_eq]; simp
theorem updateSlot_trace (d p s) : (updateSlot d p s).2.2.trace =
    s.trace ++ slotEvents s.cfg.backend (slotAt s d) p := by rw [updateSlot_eq]; simp

/-- Under the invariant an update drives each differing segment to its target and releases the others, on either
back end (41_digit_controller.md R131, 40_segment.md R106). -/
theorem coilDrive_updateSlot (d : Nat) (p : Pattern) (s : State) (h : BlockInv s) (k : Seg) :
    coilDrive (updateSlot d p s).2.2 k =
      if (diffOf (slotAt s d) p)[k] then (p[k], !p[k]) else (false, false) := by
  have hlev := updateSlot_levels d p s h.2.2.2.2.2.1 h.2.2.2.2.2.2.1
  unfold coilDrive
  rw [updateSlot_cfg]
  cases hb : s.cfg.backend with
  | direct =>
    rw [hb] at hlev
    have h1 := congrArg Prod.fst hlev
    simp only at h1
    simp only [h1]
    by_cases hd : (diffOf (slotAt s d) p)[k] <;> by_cases hp : p[k] <;> simp_all
  | serial m =>
    rw [hb] at hlev
    have h2 := congrArg Prod.snd hlev
    simp only at h2
    simp only [h2]
    have := pulseMask_drive (accepted_map h.1 hb) (slotAt s d) p k
    simpa using this

theorem BlockInv_updateSlot (d : Nat) (p : Pattern) (s : State) (h : BlockInv s) : BlockInv (updateSlot d p s).2.2 := by
  have hcoil := coilDrive_updateSlot d p s h
  obtain ⟨ha, hs, hp, hen, hena, hclk, hlat, -, hu⟩ := h
  have hlev := updateSlot_levels d p s hclk hlat
  refine ⟨by rwa [updateSlot_cfg], by rw [updateSlot_slots, updateSlot_cfg]; simpa using hs,
    by rwa [updateSlot_plant, updateSlot_cfg], ?_⟩
  rw [updateSlot_cfg]
  have hcs : coilsSafe (updateSlot d p s).2.2 := by
    intro k; rw [hcoil k]; split <;> cases p[k] <;> simp
  unfold unownedLow at hu ⊢
  rw [updateSlot_cfg]
  cases hb : s.cfg.backend with
  | direct =>
    simp only [hb] at hlev hu ⊢
    rw [Prod.mk.injEq] at hlev
    rw [hlev.1, hlev.2]
    exact ⟨hen, hena, hclk, hlat, hcs, hu⟩
  | serial m =>
    simp only [hb] at hlev hu ⊢
    rw [Prod.mk.injEq] at hlev
    rw [hlev.1]
    exact ⟨hen, hena, hclk, hlat, hcs, hu⟩

/-- `clear_pins` from idle serial lines (41_digit_controller.md R128, 42_serial_expander.md R157). -/
theorem releaseAll_levels (s : State) (hc : s.lines.serClk = false) (hl : s.lines.serLatch = false) :
    ((releaseAll s).lines, (releaseAll s).sr) =
      match s.cfg.backend with
      | .direct   => ({ s.lines with setL := 0#7, clrL := 0#7 }, s.sr)
      | .serial _ => ({ s.lines with serData := false }, ⟨0#16, 0#16⟩) := by
  rw [releaseAll_eq, perform_levels]
  cases s.cfg.backend with
  | direct => exact levelsAfter_clearEvents _
  | serial m => simpa using levelsAfter_shiftEvents 0#16 s.lines s.sr hc hl

/-- Under the invariant `clear_pins` releases every coil line (60_exceptions.md R255). -/
theorem released_releaseAll (s : State) (h : BlockInv s) : released (releaseAll s) := by
  intro k
  have hlev := releaseAll_levels s h.2.2.2.2.2.1 h.2.2.2.2.2.2.1
  unfold coilDrive
  rw [releaseAll_cfg]
  cases hb : s.cfg.backend with
  | direct =>
    simp only [hb, Prod.mk.injEq] at hlev
    simp [hlev.1]
  | serial m =>
    simp only [hb, Prod.mk.injEq] at hlev
    simp [hlev.2]

theorem BlockInv_releaseAll (s : State) (h : BlockInv s) : BlockInv (releaseAll s) := by
  have hr := released_releaseAll s h
  obtain ⟨ha, hs, hp, hen, hena, hclk, hlat, -, hu⟩ := h
  have hlev := releaseAll_levels s hclk hlat
  refine ⟨by rwa [releaseAll_cfg], by rwa [releaseAll_slots, releaseAll_cfg],
    by rwa [releaseAll_plant, releaseAll_cfg], ?_⟩
  have hcs : coilsSafe (releaseAll s) := by intro k; rw [hr k]; simp
  unfold unownedLow at hu ⊢
  rw [releaseAll_cfg]
  cases hb : s.cfg.backend with
  | direct =>
    simp only [hb] at hlev hu ⊢
    rw [Prod.mk.injEq] at hlev
    rw [hlev.1, hlev.2]
    exact ⟨hen, hena, hclk, hlat, hcs, hu⟩
  | serial m =>
    simp only [hb] at hlev hu ⊢
    rw [Prod.mk.injEq] at hlev
    rw [hlev.1]
    exact ⟨hen, hena, hclk, hlat, hcs, hu⟩

theorem BlockInv_addrLen {s : State} (h : BlockInv s) : ∀ k, s.cfg.selector = .binary k → s.lines.addr.length = k := by
  intro k hk
  have := h.2.2.2.2.2.2.2.2.2
  rw [hk] at this; exact this

/-- A strobe drives no coil line of its own (43_selector.md R180). -/
theorem coilDrive_strobe (d ms : Nat) (s : State) (k : Seg) : coilDrive (strobe d ms s) k = coilDrive s k := by
  have h : ∀ x : Lines × ShiftReg, (levelsAfter (strobeEvents s.cfg d ms) x).1.setL = x.1.setL ∧
      (levelsAfter (strobeEvents s.cfg d ms) x).1.clrL = x.1.clrL ∧
      (levelsAfter (strobeEvents s.cfg d ms) x).2 = x.2 := by
    intro x
    unfold strobeEvents
    cases s.cfg.selector with
    | oneHot => exact ⟨rfl, rfl, rfl⟩
    | binary n =>
      simp only [strobeBinaryEvents, levelsAfter_append, levelsAfter_addr]
      exact ⟨rfl, rfl, rfl⟩
  unfold strobe
  apply coilDrive_congr (by simp) <;>
    simp only [strobePlant_lines, strobePlant_sr, perform_lines, perform_sr, h]

theorem set_replicate_false (n d : Nat) : (List.replicate n false).set d false = List.replicate n false := by
  apply List.ext_getElem (by simp)
  intro i h1 h2
  simp

/-- The lines after a strobe under the invariant: only the address lines can differ (43_selector.md R181, R182, R185). -/
theorem strobe_lines (d ms : Nat) (s : State) (h : BlockInv s) : (strobe d ms s).lines =
    { s.lines with addr := match s.cfg.selector with
                           | .oneHot   => s.lines.addr
                           | .binary k => (List.range k).map d.testBit } := by
  have hlev := strobe_levels d ms s (BlockInv_addrLen h)
  rw [Prod.mk.injEq] at hlev
  obtain ⟨-, -, -, hen, hena, -⟩ := h
  rw [hlev.1]
  cases hs : s.cfg.selector with
  | oneHot =>
    rw [hs] at hen
    have : s.lines.en.set d false = s.lines.en := by rw [hen, set_replicate_false]
    simp only [this]
  | binary k => simp only [← hena]

theorem strobe_sr (d ms : Nat) (s : State) : (strobe d ms s).sr = s.sr := by
  unfold strobe
  rw [strobePlant_sr, perform_sr]
  suffices h : ∀ x : Lines × ShiftReg, (levelsAfter (strobeEvents s.cfg d ms) x).2 = x.2 from h _
  intro x
  unfold strobeEvents
  cases s.cfg.selector with
  | oneHot => rw [levelsAfter_strobeOneHot]
  | binary k => simp [strobeBinaryEvents, levelsAfter_append, levelsAfter_addr, levelsAt, putLine, shiftRegAt]

@[simp] theorem strobePlant_plant_length (d ms s) : (strobePlant d ms s).plant.length = s.plant.length := by
  unfold strobePlant; split <;> simp
@[simp] theorem strobe_plant_length (d ms s) : (strobe d ms s).plant.length = s.plant.length := by simp [strobe]

theorem BlockInv_strobe (d ms : Nat) (s : State) (h : BlockInv s) : BlockInv (strobe d ms s) := by
  have hl := strobe_lines d ms s h
  have hcoil := coilDrive_strobe d ms s
  obtain ⟨ha, hs, hp, hen, hena, hclk, hlat, hcs, hu⟩ := h
  refine ⟨by rwa [strobe_cfg], by rwa [strobe_slots, strobe_cfg], by rwa [strobe_plant_length, strobe_cfg], ?_⟩
  have hcs' : coilsSafe (strobe d ms s) := by intro k; rw [hcoil k]; exact hcs k
  unfold unownedLow at hu ⊢
  rw [strobe_cfg, strobe_sr, hl]
  refine ⟨hen, hena, hclk, hlat, hcs', hu.1, ?_⟩
  cases hs : s.cfg.selector with
  | oneHot => rw [hs] at hu; exact hu.2
  | binary k => simp

/-- The display after a strobe (45_display_plant.md R222, R224, R226). The coil drive is that before the strobe: it
cannot change during it (10_state.md R37). -/
theorem plantAt_strobe (d ms : Nat) (s : State) (h : s.plant.length = s.cfg.digits) (e : Nat) (k : Seg) :
    plantAt (strobe d ms s) e k =
      if e = d ∧ d < s.cfg.digits then flipSegment (coilDrive s k) (decide (s.cfg.tFlipMs ≤ ms)) (plantAt s d k)
      else plantAt s e k := by
  have hc : coilDrive (perform (strobeEvents s.cfg d ms) s) k = coilDrive s k := by
    rw [← coilDrive_strobe d ms s k]
    unfold strobe
    exact coilDrive_congr (by simp) (by simp) (by simp) (by simp) k
  have hpl : ∀ e, plantAt (perform (strobeEvents s.cfg d ms) s) e k = plantAt s e k := by
    intro e; unfold plantAt; rw [perform_plant]
  unfold strobe
  rw [plantAt_strobePlant _ _ _ (by simpa using h), hc, hpl, hpl, perform_cfg]

end Sys2Proof.Machine
end

