-- ==== Sys2Proof/Laws/Render.lean ====
section
/-! SUPPORT. The render pass: what one position does, and what a prefix of the positions has done. -/

namespace Sys2Proof.Machine

/-- The pattern of a position of the number `n` (44_render.md R200, R201). -/
def positionPattern (c : Config) (n pos : Nat) : Pattern := encodeDigit c (digitAt n pos)

/-- Position `pos` of `n` differs from the slot at `s`. -/
def positionChanges (s : State) (n pos : Nat) : Bool := decide (slotAt s pos ≠ some (positionPattern s.cfg n pos))

/-- The events of one position of a pass (44_render.md R203). -/
def positionEvents (s : State) (n pos : Nat) : List Event :=
  slotEvents s.cfg.backend (slotAt s pos) (positionPattern s.cfg n pos) ++
    if positionChanges s n pos then strobeEvents s.cfg pos s.cfg.holdMs.toNat else []

/-- What a strobed update makes of a segment of its digit (45_display_plant.md R222). -/
def positionOptical (s : State) (n pos : Nat) (k : Seg) : Optical :=
  if (diffOf (slotAt s pos) (positionPattern s.cfg n pos))[k] then
    if s.cfg.tFlipMs ≤ s.cfg.holdMs.toNat then opticalOf (positionPattern s.cfg n pos)[k] else .unknown
  else plantAt s pos k

/-- What a strobe of position `pos` leaves on the address lines (43_selector.md R182). -/
def addrAfter (c : Config) (a : List Bool) : Option Nat → List Bool
  | none     => a
  | some pos => match c.selector with
                | .oneHot   => a
                | .binary k => (List.range k).map pos.testBit

theorem diffOf_self (p : Pattern) : diffOf (some p) p = 0#7 := by simp [diffOf]

/-- Everything one position of a pass can do (44_render.md R200, R203). -/
theorem renderPosition_spec (n pos : Nat) (a : Pass) (h : BlockInv a.state) :
    let s := a.state
    let b := renderPosition n a pos
    BlockInv b.state ∧ b.state.cfg = s.cfg ∧ b.state.commands = s.commands ∧ b.state.responses = s.responses ∧
    b.state.slots = s.slots.set pos (some (positionPattern s.cfg n pos)) ∧
    b.state.trace = s.trace ++ positionEvents s n pos ∧
    b.state.lines.addr = addrAfter s.cfg s.lines.addr (if positionChanges s n pos then some pos else none) ∧
    (∀ e k, pos < s.cfg.digits →
      plantAt b.state e k = if e = pos then positionOptical s n pos k else plantAt s e k) ∧
    b.strobed = (if positionChanges s n pos then setBit a.strobed pos true else a.strobed) ∧
    b.any = (positionChanges s n pos || a.any) := by
  intro s b
  have hs : BlockInv s := h
  set p := positionPattern s.cfg n pos with hp
  have hI := BlockInv_updateSlot pos p s hs
  have haddr : (updateSlot pos p s).2.2.lines.addr = s.lines.addr := by
    have hl := congrArg Prod.fst (updateSlot_levels pos p s hs.2.2.2.2.2.1 hs.2.2.2.2.2.2.1)
    refine (congrArg Lines.addr hl).trans ?_
    cases s.cfg.backend <;> rfl
  have hch : (updateSlot pos p s).1 = positionChanges s n pos := by rw [updateSlot_eq]; rfl
  have hpl : ∀ e k, plantAt (updateSlot pos p s).2.2 e k = plantAt s e k := by
    intro e k; unfold plantAt; rw [updateSlot_plant]
  by_cases hc : positionChanges s n pos = true
  · have hb : b = ⟨strobe pos (updateSlot pos p s).2.2.cfg.holdMs.toNat (updateSlot pos p s).2.2,
        setBit a.strobed pos true, true⟩ := by
      exact if_pos (show (updateSlot pos p s).1 = true by rw [hch]; exact hc)
    rw [hb]
    refine ⟨BlockInv_strobe _ _ _ hI, by simp [updateSlot_cfg], by simp [updateSlot_commands],
      by simp [updateSlot_responses], by simp [updateSlot_slots], ?_, ?_, ?_, by simp [hc], by simp [hc]⟩
    · simp [updateSlot_trace, updateSlot_cfg, positionEvents, hc, hp]
    · simp only [hc, if_true]
      rw [strobe_lines _ _ _ hI]
      unfold addrAfter
      rw [updateSlot_cfg, haddr]
      all_goals (cases s.cfg.selector <;> rfl)
    · intro e k hN
      simp only
      rw [plantAt_strobe _ _ _ hI.2.2.1, hpl, hpl, coilDrive_updateSlot _ _ _ hs, updateSlot_cfg]
      by_cases he : e = pos
      · subst he
        simp only [hN, and_self, if_true, positionOptical, ← hp]
        by_cases hd : (diffOf (slotAt s e) p)[k] = true
        · rw [if_pos hd, if_pos hd]
          cases hpk : p[k] <;> by_cases hf : s.cfg.tFlipMs ≤ s.cfg.holdMs.toNat <;>
            simp [flipSegment, opticalOf, hf]
        · rw [if_neg hd, if_neg hd]; rfl
      · simp [he]
  · have hb : b = { a with state := (updateSlot pos p s).2.2 } := by
      exact if_neg (show ¬ (updateSlot pos p s).1 = true by rw [hch]; exact hc)
    have hsl : slotAt s pos = some p := by
      by_contra hne; exact hc (by simp [positionChanges, ← hp, hne])
    rw [hb]
    refine ⟨hI, updateSlot_cfg _ _ _, updateSlot_commands _ _ _, updateSlot_responses _ _ _,
      updateSlot_slots _ _ _, ?_, ?_, ?_, by simp [hc], by simp [hc]⟩
    · simp [updateSlot_trace, positionEvents, hc, hp]
    · simp only [hc, addrAfter]; exact haddr
    · intro e k hN
      simp only [hpl]
      by_cases he : e = pos
      · subst he; simp [positionOptical, ← hp, hsl, diffOf_self]
      · simp [he]

/-- A pass after its first `m` positions (44_render.md R203). -/
def passPrefix (n : Nat) (s : State) (m : Nat) : Pass := (List.range m).foldl (renderPosition n) ⟨s, 0#16, false⟩

theorem passPrefix_succ (n s m) : passPrefix n s (m + 1) = renderPosition n (passPrefix n s m) m := by
  simp [passPrefix, List.range_succ]

theorem renderPositions_eq (n s) : renderPositions n s = passPrefix n s s.cfg.digits := rfl

/-- Everything the first `m` positions of a pass can do: each position finds its slot and its digit as they were
before the pass, because no earlier position touches them (44_render.md R200, R203). -/
theorem passPrefix_spec (n : Nat) (s : State) (h : BlockInv s) (m : Nat) (hm : m ≤ s.cfg.digits) :
    let t := (passPrefix n s m).state
    BlockInv t ∧ t.cfg = s.cfg ∧ t.commands = s.commands ∧ t.responses = s.responses ∧
    (∀ i, slotAt t i = if i < m then some (positionPattern s.cfg n i) else slotAt s i) ∧
    t.trace = s.trace ++ (List.range m).flatMap (positionEvents s n) ∧
    t.lines.addr = addrAfter s.cfg s.lines.addr ((List.range m).filter (positionChanges s n)).getLast? ∧
    (∀ e k, plantAt t e k = if e < m then positionOptical s n e k else plantAt s e k) ∧
    (∀ i, (passPrefix n s m).strobed.getLsbD i =
      (decide (i < 16) && decide (i < m) && positionChanges s n i)) ∧
    (passPrefix n s m).any = (List.range m).any (positionChanges s n) := by
  induction m with
  | zero => exact ⟨h, rfl, rfl, rfl, by simp [passPrefix], by simp [passPrefix], by simp [passPrefix, addrAfter],
      by simp [passPrefix], by simp [passPrefix], by simp [passPrefix]⟩
  | succ m ih =>
    obtain ⟨hI, hcfg, hcom, hres, hsl, htr, haddr, hpl, hst, hany⟩ := ih (by omega)
    obtain ⟨hI', hcfg', hcom', hres', hsl', htr', haddr', hpl', hst', hany'⟩ :=
      renderPosition_spec n m (passPrefix n s m) hI
    have hpat : ∀ i, positionPattern (passPrefix n s m).state.cfg n i = positionPattern s.cfg n i := by
      intro i; rw [hcfg]
    have hslm : slotAt (passPrefix n s m).state m = slotAt s m := by rw [hsl]; simp
    have hchm : positionChanges (passPrefix n s m).state n m = positionChanges s n m := by
      unfold positionChanges; rw [hslm, hpat]
    have hplm : ∀ k, plantAt (passPrefix n s m).state m k = plantAt s m k := by intro k; rw [hpl]; simp
    rw [passPrefix_succ]
    refine ⟨hI', by rw [hcfg', hcfg], by rw [hcom', hcom], by rw [hres', hres], ?_, ?_, ?_, ?_, ?_, ?_⟩
    · intro i
      have hlen : m < (passPrefix n s m).state.slots.length := by rw [hI.2.1, hcfg]; omega
      have hw : slotAt (renderPosition n (passPrefix n s m) m).state i =
          slotAt (writeSlot m (positionPattern s.cfg n m) (passPrefix n s m).state) i :=
        slotAt_congr (by rw [hsl', hpat]; rfl) i
      rw [hw, slotAt_writeSlot, hsl i]
      by_cases him : i = m
      · subst him; simp [hlen]
      · by_cases hlt : i < m
        · simp [him, hlt, Nat.lt_succ_of_lt hlt]
        · have : ¬ i < m + 1 := by omega
          simp [him, hlt, this]
    · rw [htr', htr, List.range_succ, List.flatMap_append, List.append_assoc]
      congr 2
      simp only [List.flatMap_cons, List.flatMap_nil, List.append_nil, positionEvents, hslm, hchm, hcfg]
    · rw [haddr', haddr, hchm, hcfg, List.range_succ, List.filter_append]
      by_cases hc : positionChanges s n m = true
      · simp only [hc, if_true, List.filter_cons, List.filter_nil, List.getLast?_append, List.getLast?_singleton,
          Option.some_or, addrAfter]
        cases s.cfg.selector with
        | binary k => rfl
        | oneHot => simp only; split <;> rfl
      · simp [hc, addrAfter]
    · intro e k
      rw [hpl' e k (by rw [hcfg]; omega), hpl e k]
      by_cases hem : e = m
      · subst hem
        simp only [positionOptical, hslm, hcfg, hplm, if_true, Nat.lt_succ_self]
      · by_cases hlt : e < m
        · simp [hem, hlt, Nat.lt_succ_of_lt hlt]
        · have : ¬ e < m + 1 := by omega
          simp [hem, hlt, this]
    · intro i
      rw [hst', hchm]
      by_cases hc : positionChanges s n m = true
      · rw [if_pos hc, getLsbD_setBit, hst]
        by_cases him : i = m
        · subst him; by_cases h16 : i < 16 <;> simp [h16, hc]
        · have : (i < m + 1) = (i < m) := by simp; omega
          simp [him, this]
      · rw [if_neg hc, hst]
        by_cases him : i = m
        · subst him; simp [hc]
        · have : (i < m + 1) = (i < m) := by simp; omega
          simp [this]
    · rw [hany', hchm, hany, List.range_succ, List.any_append]
      simp [Bool.or_comm]

end Sys2Proof.Machine
end

