-- ==== Sys2Proof/Laws/Events.lean ====
section
/-! SUPPORT. What a command can do, said once: the events it emits explain its trace, lines and shift register. -/

namespace Sys2Proof.Machine

/-- `t` comes from `s` by emitting `es`: the configuration stays, the trace grows by `es`, and the levels are those
`es` makes. -/
def Emits (s t : State) (es : List Event) : Prop :=
  t.cfg = s.cfg ∧ t.trace = s.trace ++ es ∧ (t.lines, t.sr) = levelsAfter es (s.lines, s.sr)

theorem Emits_refl (s : State) : Emits s s [] := ⟨rfl, by simp, rfl⟩

theorem Emits_trans {s t u : State} {es fs : List Event} (h1 : Emits s t es) (h2 : Emits t u fs) :
    Emits s u (es ++ fs) :=
  ⟨h2.1.trans h1.1, by rw [h2.2.1, h1.2.1, List.append_assoc], by rw [h2.2.2, h1.2.2, levelsAfter_append]⟩

theorem Emits_perform (es s) : Emits s (perform es s) es := ⟨by simp, by simp, perform_levels es s⟩

theorem Emits_respond {s t : State} {es : List Event} (e c x) (h : Emits s t es) : Emits s (respond e c x t) es := h

theorem Emits_updateSlot (d p s) :
    Emits s (updateSlot d p s).2.2 (slotEvents s.cfg.backend (slotAt s d) p) := by
  rw [updateSlot_eq]; exact Emits_perform _ _

theorem Emits_releaseAll (s) : Emits s (releaseAll s)
    (match s.cfg.backend with | .direct => clearEvents | .serial _ => shiftEvents 0#16) := by
  rw [releaseAll_eq]; exact Emits_perform _ _

theorem Emits_strobe (d ms s) : Emits s (strobe d ms s) (strobeEvents s.cfg d ms) := by
  refine ⟨by simp, by simp, ?_⟩
  unfold strobe
  rw [strobePlant_lines, strobePlant_sr]
  exact perform_levels _ _

/-- A position of a pass updates its slot and perhaps strobes it (44_render.md R200). -/
theorem renderPosition_state (n pos : Nat) (a : Pass) :
    let t := (updateSlot pos (positionPattern a.state.cfg n pos) a.state).2.2
    (renderPosition n a pos).state = t ∨ (renderPosition n a pos).state = strobe pos t.cfg.holdMs.toNat t := by
  intro t
  by_cases h : (updateSlot pos (positionPattern a.state.cfg n pos) a.state).1 = true
  · right; exact congrArg Pass.state (if_pos h)
  · left; exact congrArg Pass.state (if_neg h)

theorem Emits_renderPosition (n pos : Nat) (a : Pass) : ∃ es, Emits a.state (renderPosition n a pos).state es := by
  rcases renderPosition_state n pos a with h | h <;> rw [h]
  · exact ⟨_, Emits_updateSlot _ _ _⟩
  · exact ⟨_, Emits_trans (Emits_updateSlot _ _ _) (Emits_strobe _ _ _)⟩

theorem Emits_passPrefix (n s m) : ∃ es, Emits s (passPrefix n s m).state es := by
  induction m with
  | zero => exact ⟨[], Emits_refl s⟩
  | succ m ih =>
    obtain ⟨es, h⟩ := ih
    obtain ⟨fs, h'⟩ := Emits_renderPosition n m (passPrefix n s m)
    rw [passPrefix_succ]; exact ⟨es ++ fs, Emits_trans h h'⟩

/-- Every command answers a next state, takes no command word, and its events explain what it did to the pins. -/
theorem exec_emits (i : Instr) (s : State) :
    ∃ t es, exec i s = .next t ∧ Emits s t es := by
  have hraise : ∀ e, ∃ t es, (Host.Outcome.next (raise e s) : Result) = .next t ∧ Emits s t es :=
    fun e => ⟨_, [], rfl, Emits_refl s⟩
  have hupd : ∀ d p, ∃ t es, (Host.Outcome.next (updateAndRespond d p s) : Result) = .next t ∧ Emits s t es :=
    fun d p => ⟨_, _, rfl, Emits_updateSlot d p s⟩
  cases i with
  | encode v =>
    simp only [exec, execEncode]; cases digitOf v with
    | none => exact hraise _
    | some n => exact ⟨_, [], rfl, Emits_refl s⟩
  | update d p =>
    simp only [exec, execUpdate]; split
    · exact hupd _ _
    · exact hraise _
  | displayNumber d v =>
    simp only [exec, execDisplayNumber]; cases digitOf v with
    | none => exact hraise _
    | some n =>
      dsimp only; split
      · exact hupd _ _
      · exact hraise _
  | clearPins => exact ⟨_, _, rfl, Emits_respond _ _ _ (Emits_releaseAll s)⟩
  | strobe d ms =>
    simp only [exec, execStrobe]; split
    · exact ⟨_, _, rfl, Emits_respond _ _ _ (Emits_strobe d ms s)⟩
    · exact hraise _
  | render n =>
    simp only [exec, execRender]; split
    · obtain ⟨es, h⟩ := Emits_passPrefix n s s.cfg.digits
      exact ⟨_, _, rfl, Emits_respond _ _ _
        (Emits_trans (Emits_trans h (Emits_releaseAll _)) (Emits_perform _ _))⟩
    · exact hraise _

/-- Everything a step can do: idle, perform the next command, or answer an illegal word (10_state.md R37). -/
theorem step_cases (s : State) :
    (s.commands = [] ∧ step s = .next s) ∨
    (∃ w rest i, s.commands = w :: rest ∧ decode w = .command i ∧ step s = exec i (takeCommand rest s)) ∨
    (∃ w rest why, s.commands = w :: rest ∧ decode w = .illegal why ∧
      step s = .next (raise .illegal (takeCommand rest s))) := by
  unfold step
  cases hc : s.commands with
  | nil => exact .inl ⟨rfl, rfl⟩
  | cons w rest =>
    cases hd : decode w with
    | command i => exact .inr (.inl ⟨w, rest, i, rfl, hd, by simp [hd]⟩)
    | illegal why => exact .inr (.inr ⟨w, rest, why, rfl, hd, by simp [hd]; rfl⟩)

end Sys2Proof.Machine
end

