-- ==== Sys2Proof/Laws/PerInstr.lean ====
section
/-! SUPPORT. One lemma per command about its word: the operation field is the one spec/30_encoding.md R71 gives the
command, the reserved field is 0 (R73), and the digit field is 0 in the commands that have no digit (R72, R78). -/

namespace Sys2Proof.Laws

theorem opField_packWord (o : BitVec 4) (d : Nat) (x : BitVec 16) : opField (packWord o d x) = o := by
  ext j hj
  simp only [opField, packWord, BitVec.getElem_extractLsb', BitVec.getLsbD_append]
  rw [if_neg (by omega), if_neg (by omega), if_neg (by omega), show 28 + j - 16 - 4 - 8 = j by omega]
  simp [← BitVec.getLsbD_eq_getElem]

theorem rsvField_packWord (o : BitVec 4) (d : Nat) (x : BitVec 16) : rsvField (packWord o d x) = 0#4 := by
  ext j hj
  simp only [rsvField, packWord, BitVec.getElem_extractLsb', BitVec.getLsbD_append]
  rw [if_neg (by omega), if_pos (by omega)]
  simp

theorem digitField_packWord (o : BitVec 4) (d : Nat) (x : BitVec 16) :
    digitField (packWord o d x) = BitVec.ofNat 8 d := by
  ext j hj
  simp only [digitField, packWord, BitVec.getElem_extractLsb', BitVec.getLsbD_append]
  rw [if_neg (by omega), if_neg (by omega), if_pos (by omega), show 20 + j - 16 - 4 = j by omega]
  simp [← BitVec.getLsbD_eq_getElem]

end Sys2Proof.Laws

namespace Sys2Proof.Laws.OpField

/-- The operation field of each command (R71). -/
def opcode : Instr → BitVec 4
  | .encode _          => 0x1#4
  | .update _ _        => 0x2#4
  | .displayNumber _ _ => 0x3#4
  | .clearPins         => 0x4#4
  | .strobe _ _        => 0x5#4
  | .render _          => 0x6#4

/-- The digit index of each command, 0 where it has none (R72, R78). -/
def digit : Instr → BitVec 8
  | .encode _          => 0#8
  | .update d _        => BitVec.ofNat 8 d
  | .displayNumber d _ => BitVec.ofNat 8 d
  | .clearPins         => 0#8
  | .strobe d _        => BitVec.ofNat 8 d
  | .render _          => 0#8

def Statement (i : Instr) : Prop :=
  opField (Sys2Proof.encode i) = opcode i ∧ rsvField (Sys2Proof.encode i) = 0#4 ∧
    digitField (Sys2Proof.encode i) = digit i

theorem encode (v : Value) : Statement (.encode v) :=
  ⟨opField_packWord _ _ _, rsvField_packWord _ _ _, digitField_packWord _ _ _⟩
theorem update (d : Nat) (p : Pattern) : Statement (.update d p) :=
  ⟨opField_packWord _ _ _, rsvField_packWord _ _ _, digitField_packWord _ _ _⟩
theorem displayNumber (d : Nat) (v : Value) : Statement (.displayNumber d v) :=
  ⟨opField_packWord _ _ _, rsvField_packWord _ _ _, digitField_packWord _ _ _⟩
theorem clearPins : Statement .clearPins :=
  ⟨opField_packWord _ _ _, rsvField_packWord _ _ _, digitField_packWord _ _ _⟩
theorem strobe (d ms : Nat) : Statement (.strobe d ms) :=
  ⟨opField_packWord _ _ _, rsvField_packWord _ _ _, digitField_packWord _ _ _⟩
theorem render (n : Nat) : Statement (.render n) :=
  ⟨opField_packWord _ _ _, rsvField_packWord _ _ _, digitField_packWord _ _ _⟩

end Sys2Proof.Laws.OpField
end

