-- ==== Sys2Proof/Laws/Reset.lean ====
section
/-! SUPPORT. What the line writes of the reset sequence leave (spec/70_reset_and_hazards.md R271). -/

namespace Sys2Proof.Machine

theorem levelsAfter_lowerEnables (x : Lines × ShiftReg) :
    levelsAfter ((List.range x.1.en.length).map fun d => .write (.en d) false) x =
      ({ x.1 with en := List.replicate x.1.en.length false }, x.2) := by
  have h : ∀ (js : List Nat) (y : Lines × ShiftReg), levelsAfter (js.map fun d => .write (.en d) false) y =
      ({ y.1 with en := js.foldl (fun a j => a.set j false) y.1.en }, y.2) := by
    intro js
    induction js with
    | nil => intro y; rfl
    | cons j js ih => intro y; rw [List.map_cons, levelsAfter_cons, ih]; rfl
  rw [h, foldl_set_all (fun _ => false)]
  simp

/-- The selector's part lowers every selector line, whatever the lines held. -/
theorem levelsAfter_resetSelector (c : Config) (x : Lines × ShiftReg)
    (hen : x.1.en.length = (match c.selector with | .oneHot => c.digits | .binary _ => 0))
    (haddr : x.1.addr.length = (match c.selector with | .oneHot => 0 | .binary k => k))
    (hlow : c.selector = .oneHot → x.1.enable = false) :
    levelsAfter (resetSelectorEvents c.selector c.digits) x =
      ({ x.1 with en := (Lines.low c).en, addr := (Lines.low c).addr, enable := false }, x.2) := by
  unfold resetSelectorEvents Lines.low
  cases hs : c.selector with
  | oneHot =>
    rw [hs] at hen haddr
    simp only at hen haddr ⊢
    rw [← hen, levelsAfter_lowerEnables, ← hlow hs, ← List.length_eq_zero_iff.1 haddr]
  | binary k =>
    rw [hs] at hen haddr
    simp only at hen haddr ⊢
    rw [levelsAfter_cons, levelsAfter_addr (fun _ => false)]
    simp only [levelsAt, putLine, shiftRegAt]
    rw [← haddr, foldl_set_all (fun _ => false), ← List.length_eq_zero_iff.1 hen]
    simp

/-- The serial back end's part lowers the three lines and clears the register, whatever they held. -/
theorem levelsAfter_resetSerial (m : SrMap) (x : Lines × ShiftReg) :
    levelsAfter (resetBackendEvents (.serial m)) x =
      ({ x.1 with serData := false, serClk := false, serLatch := false }, ⟨0#16, 0#16⟩) := by
  unfold resetBackendEvents
  rw [levelsAfter_append]
  simp only [levelsAfter_cons, levelsAfter_nil, levelsAt, putLine, shiftRegAt, Bool.false_and, Bool.false_eq_true,
    if_false]
  rw [levelsAfter_shiftEvents _ _ _ rfl rfl]
  simp

/-- The direct back end's part releases every segment. -/
theorem levelsAfter_resetDirect (x : Lines × ShiftReg) :
    levelsAfter (resetBackendEvents .direct) x = ({ x.1 with setL := 0#7, clrL := 0#7 }, x.2) :=
  levelsAfter_clearEvents x

end Sys2Proof.Machine
end

