-- ==== Sys2Proof/Laws/Response.lean ====
section
/-! SUPPORT. The fields of a response word (spec/30_encoding.md R80). -/

namespace Sys2Proof.Machine

/-- The response word as a number. -/
theorem responseWord_toNat (e : Err) (c : Bool) (x : Mask) :
    (responseWord e c x).toNat = x.toNat * 2 ^ 16 + c.toNat * 2 ^ 4 + (errCode e).toNat := by
  unfold responseWord
  have hc : (BitVec.ofBool c).toNat = c.toNat := by cases c <;> rfl
  have hc2 : c.toNat < 2 := by cases c <;> simp
  have he := (errCode e).isLt
  simp only [BitVec.toNat_append, hc]
  rw [← Nat.shiftLeft_add_eq_or_of_lt he, ← Nat.shiftLeft_add_eq_or_of_lt (by omega),
    ← Nat.shiftLeft_add_eq_or_of_lt (by simp)]
  simp [Nat.shiftLeft_eq]
  omega

@[simp] theorem errField_responseWord (e : Err) (c : Bool) (x : Mask) : errField (responseWord e c x) = errCode e := by
  have hc2 : c.toNat < 2 := by cases c <;> simp
  have he := (errCode e).isLt
  apply BitVec.eq_of_toNat_eq
  simp only [errField, BitVec.extractLsb'_toNat, responseWord_toNat, Nat.shiftRight_zero]
  omega

@[simp] theorem changedField_responseWord (e : Err) (c : Bool) (x : Mask) :
    changedField (responseWord e c x) = c := by
  have he := (errCode e).isLt
  simp only [changedField, BitVec.getLsbD, Nat.testBit_eq_decide_div_mod_eq, responseWord_toNat]
  cases c <;> simp <;> omega

@[simp] theorem dataField_responseWord (e : Err) (c : Bool) (x : Mask) : dataField (responseWord e c x) = x := by
  have hc2 : c.toNat < 2 := by cases c <;> simp
  have he := (errCode e).isLt
  have hx := x.isLt
  apply BitVec.eq_of_toNat_eq
  simp only [dataField, BitVec.extractLsb'_toNat, responseWord_toNat, Nat.shiftRight_eq_div_pow]
  omega

end Sys2Proof.Machine
end

