-- ==== Sys2Proof/Tests/Slice0.lean ====
section
/-! SUPPORT. Tests on fixed values. The expected values come from spec/95_test_vectors.md (vectors named in the docstrings)
and from the encodings of spec/30_encoding.md; none is the model's own answer. The second half holds, for every
statement with hypotheses, a state and operands that meet them. -/

namespace Sys2Proof.Tests

open Sys2Proof.Machine Sys2Proof.Spec

/-! ## Small states -/

/-- SERIAL, BINARY, `K = 2`, `N = 3`, `TEST_MAP`: the configuration of program P3. -/
def serialBinary : Config := { Config.standard with backend := .serial Config.testMap, selector := .binary 2 }

/-- DIRECT, BINARY, `K = 3`, `N = 5`: the configuration of L2-S3. -/
def directBinary : Config := { Config.standard with digits := 5, selector := .binary 3 }

/-- Just after reset, with the trace emptied. -/
def fresh (c : Config) : State := { State.resetOf c with trace := [] }

/-- `fresh` with slot 0 holding `q`. -/
def holding (c : Config) (q : Pattern) : State := writeSlot 0 q (fresh c)

/-- What one step on a command word leaves, seen through `f`. -/
def see {α : Type} (w : Word) (s : State) (f : State → α) : Option α :=
  match step (present w s) with
  | .next t    => some (f t)
  | .fault _   => none
  | .refused _ => none

/-- The next state of a command, the same state where it has none. -/
def done (i : Instr) (s : State) : State :=
  match exec i s with
  | .next t    => t
  | .fault _   => s
  | .refused _ => s

/-! ## Well-formedness refuses (30_encoding.md R72, R74, R76, R77) -/

theorem test_refuse_number : (Instr.encode (.number 32768)).wellFormed = false := by decide
theorem test_refuse_number_display : (Instr.displayNumber 0 (.number 32768)).wellFormed = false := by decide
theorem test_refuse_digit_update : (Instr.update 256 0#7).wellFormed = false := by decide
theorem test_refuse_digit_display : (Instr.displayNumber 256 .blank).wellFormed = false := by decide
theorem test_refuse_digit_strobe : (Instr.strobe 256 0).wellFormed = false := by decide
theorem test_refuse_hold : (Instr.strobe 0 65536).wellFormed = false := by decide
theorem test_refuse_render : (Instr.render 65536).wellFormed = false := by decide

/-! ## Words written out from the encoding, field by field: OP, DIGIT, RSV, OPND (R70 to R77) -/

theorem test_word_encode : decode (0x1#4 ++ 0x00#8 ++ 0x0#4 ++ 0x8000#16) = .command (.encode .blank) := by decide
theorem test_word_update : decode (0x2#4 ++ 0x02#8 ++ 0x0#4 ++ 0x004F#16) = .command (.update 2 0x4F#7) := by decide
theorem test_word_display :
    decode (0x3#4 ++ 0xFF#8 ++ 0x0#4 ++ 0x7FFF#16) = .command (.displayNumber 255 (.number 32767)) := by decide
theorem test_word_clear : decode (0x4#4 ++ 0x00#8 ++ 0x0#4 ++ 0x0000#16) = .command .clearPins := by decide
theorem test_word_strobe : decode (0x5#4 ++ 0x03#8 ++ 0x0#4 ++ 0x0064#16) = .command (.strobe 3 100) := by decide
theorem test_word_render : decode (0x6#4 ++ 0x00#8 ++ 0x0#4 ++ 0x03E7#16) = .command (.render 999) := by decide
theorem test_encode_blank_word : encode (.displayNumber 1 .blank) = 0x30108000#32 := by decide
/-- L2-X: each reason a word is illegal. -/
theorem test_illegal_words :
    decode 0x00000000#32 = .illegal .opcode ∧ decode 0x70000000#32 = .illegal .opcode ∧
    decode 0x20010007#32 = .illegal .reserved ∧ decode 0x10100007#32 = .illegal .digit ∧
    decode 0x60100000#32 = .illegal .digit ∧ decode 0x20000080#32 = .illegal .operand ∧
    decode 0x40000001#32 = .illegal .operand ∧ decode 0x3000C000#32 = .illegal .blank := by decide
/-- The host's way in: a table word placed by `withFetchWord` is the one the next step performs. -/
theorem test_fetch_word : decodeTableWord 32 0x10000007 = some (.encode (.number 7)) ∧
    (State.reset.withFetchWord 32 0x10000007).commands = [0x10000007#32] := by decide

/-! ## One step of each command -/

/-- L1-1. -/
theorem test_encode : see 0x10000007#32 State.reset (·.responses) = some [0x00070000#32] := by decide
/-- L2-E2. -/
theorem test_encode_range : see 0x1000000A#32 State.reset (·.responses) = some [0x00000001#32] := by decide
/-- L1-4: from 0x5B to 0x4F, the 14 writes in order. -/
theorem test_update : see 0x2000004F#32 (holding Config.standard 0x5B#7) (·.trace) = some
    [.write (.setL 0) false, .write (.clrL 0) false, .write (.setL 1) false, .write (.clrL 1) false,
     .write (.clrL 2) false, .write (.setL 2) true, .write (.setL 3) false, .write (.clrL 3) false,
     .write (.setL 4) false, .write (.clrL 4) true, .write (.setL 5) false, .write (.clrL 5) false,
     .write (.setL 6) false, .write (.clrL 6) false] := by decide
/-- L2-M2: from 0x55 to 0x2A, the mask in `DATA` and on the outputs. -/
theorem test_update_serial : see 0x2000002A#32 (holding serialBinary 0x55#7) (fun t => (t.responses, t.sr.q)) =
    some ([0x86960010#32], 0x8696#16) := by decide
/-- L2-D: 8 to 0, only G goes off. -/
theorem test_display : see 0x30000000#32 (holding Config.standard 0x7F#7)
    (fun t => (t.lines.setL, t.lines.clrL, slotAt t 0)) = some (0x00#7, 0x40#7, some 0x3F#7) := by decide
/-- L2-D: both errors apply. -/
theorem test_display_errors : see 0x3050000C#32 State.reset (·.responses) = some [0x00000001#32] := by decide
/-- L2-C. -/
theorem test_clear : see 0x40000000#32
    { holding Config.standard 0x7F#7 with lines := { Lines.low Config.standard with setL := 0x7F#7 } }
    (fun t => (t.lines.setL, t.lines.clrL, slotAt t 0, t.trace.length)) =
    some (0x00#7, 0x00#7, some 0x7F#7, 14) := by decide
/-- L2-C. -/
theorem test_clear_serial : see 0x40000000#32 { fresh serialBinary with sr := ⟨0x866C#16, 0x866C#16⟩ }
    (fun t => (t.sr.q, t.trace.length)) = some (0x0000#16, 50) := by decide
/-- L2-S1. -/
theorem test_strobe : see 0x50200000#32 (fresh Config.standard) (·.trace) =
    some [.write (.en 2) true, .wait 0, .write (.en 2) false] := by decide
/-- L2-S2: no digit is wired at index 3. -/
theorem test_strobe_binary : see 0x50300064#32 (fresh serialBinary) (fun t => (t.trace, t.lines.addr, t.responses)) =
    some ([.write (.addr 0) true, .write (.addr 1) true, .write .enable true, .wait 100, .write .enable false],
      [true, true], [0x00000000#32]) := by decide
/-- L1-7, L2-R3. -/
theorem test_render : see 0x60000007#32 (fresh Config.standard) (fun t => (t.responses, t.trace.length, t.slots)) =
    some ([0x00070010#32], 66, [some 0x07#7, some 0x00#7, some 0x00#7]) := by decide
/-- L2-R2. -/
theorem test_render_range : see 0x600003E8#32 State.reset (·.responses) = some [0x00000001#32] := by decide
/-- L2-X. -/
theorem test_illegal : see 0x81234567#32 State.reset (·.responses) = some [0x0000000F#32] := by decide

/-! ## The units behind the commands -/

/-- L2-M1, digits 7 and 1. -/
theorem test_mask : pulseMask Config.testMap none 0x07#7 = 0x266C#16 ∧
    pulseMask Config.testMap none 0x06#7 = 0x866C#16 := by decide
/-- L2-M4: fifteen clocks push all but one of the old ones out. -/
theorem test_register : (perform ((shiftEvents 0x0001#16).take 45)
    { fresh serialBinary with sr := ⟨0xFFFF#16, 0x0000#16⟩ }).sr = ⟨0x8000#16, 0x0000#16⟩ := by decide
/-- L2-P: a hold of 50 flips, a hold of 49 does not. -/
theorem test_plant : flipSegment (true, false) (decide (50 ≤ 50)) .unknown = .on ∧
    flipSegment (true, false) (decide (50 ≤ 49)) .off = .unknown := by decide
/-- L2-R1: an interior zero is shown, a leading one is not. -/
theorem test_digits : digitAt 105 1 = some 0 ∧ digitAt 10 2 = none ∧ digitAt 0 0 = some 0 := by decide
/-- L2-Z. -/
theorem test_reset_events : (resetEvents Config.standard).length = 17 ∧ (resetEvents serialBinary).length = 56 := by
  decide
/-- R274: a selector with too few indices is refused. -/
theorem test_refuse_config : construct { serialBinary with digits := 5 } = none := by decide

/-! ## The case of log entry 8 -/

/-- A second, short strobe of the driven digit, which (P1) and (P2) of R227 as written allow, leaves the segment
`Unknown` although the slot holds a pattern (R222). -/
theorem test_short_restrobe :
    plantAt (done (.strobe 0 10) (done (.strobe 0 100) (done (.update 0 0x7F#7) (fresh Config.standard)))) 0 0 =
      .unknown := by decide

/-! ## Witnesses: states and operands that meet the hypotheses of each statement -/

theorem inv_reset : BlockInv State.reset :=
  ⟨by decide, rfl, rfl, rfl, rfl, rfl, rfl, by unfold coilsSafe; decide, ⟨rfl, rfl⟩, rfl⟩
theorem inv_fresh : BlockInv (fresh Config.standard) :=
  ⟨by decide, rfl, rfl, rfl, rfl, rfl, rfl, by unfold coilsSafe; decide, ⟨rfl, rfl⟩, rfl⟩
theorem inv_serial : BlockInv (fresh serialBinary) :=
  ⟨by decide, rfl, rfl, rfl, rfl, rfl, rfl, by unfold coilsSafe; decide, ⟨rfl, rfl⟩, rfl⟩
theorem inv_holding : BlockInv (holding Config.standard 0x5B#7) :=
  ⟨by decide, rfl, rfl, rfl, rfl, rfl, rfl, by unfold coilsSafe; decide, ⟨rfl, rfl⟩, rfl⟩

/-- Every command performed at a small state that meets the invariant. -/
theorem step_clear : step (present 0x40000000#32 (fresh Config.standard)) =
    .next (done .clearPins (fresh Config.standard)) := rfl
theorem inv_presented : BlockInv (present 0x40000000#32 (fresh Config.standard)) := inv_fresh

theorem witness_LineWrites : hasLine (fresh Config.standard) (.en 2) ∧ hasLine (fresh serialBinary) (.addr 1) ∧
    hasLine (fresh Config.standard) (.setL 6) ∧ Line.en 1 ≠ Line.en 2 :=
  ⟨by unfold hasLine; decide, by unfold hasLine; decide, trivial, by decide⟩
theorem witness_DecodeEncode : (Instr.encode (.number 32767)).wellFormed = true ∧
    (Instr.update 255 0x7F#7).wellFormed = true ∧ (Instr.displayNumber 255 .blank).wellFormed = true ∧
    Instr.clearPins.wellFormed = true ∧ (Instr.strobe 255 65535).wellFormed = true ∧
    (Instr.render 65535).wellFormed = true := by decide
theorem witness_EncodeDecode : decode 0x6000FFFF#32 = .command (.render 65535) := by decide
theorem witness_DecoderIsTotal : ¬ IllegalWord 0x10008000#32 ∧ IllegalWord 0x10008001#32 ∧
    ¬ IllegalWord 0x2FF0007F#32 ∧ IllegalWord 0x20000080#32 ∧ ¬ IllegalWord 0x40000000#32 ∧
    IllegalWord 0x40000001#32 ∧ IllegalWord 0x40100000#32 ∧ ¬ IllegalWord 0x6000FFFF#32 ∧
    IllegalWord 0x60100000#32 ∧ IllegalWord 0x70000000#32 ∧ IllegalWord 0x0FF00000#32 ∧
    IllegalWord 0x50010000#32 := by
  refine ⟨?_, ?_, ?_, ?_, ?_, ?_, ?_, ?_, ?_, ?_, ?_, ?_⟩ <;> decide
theorem witness_StepRunsCommand : (present 0x40000000#32 State.reset).commands = [0x40000000#32] ∧
    decode 0x40000000#32 = .command .clearPins := by decide
theorem witness_StepIdle : State.reset.commands = [] := rfl
theorem witness_IllegalWordAnswered : (present 0x70000000#32 State.reset).commands = [0x70000000#32] ∧
    IllegalWord 0x70000000#32 := by decide
theorem witness_OneResponsePerCommand : (present 0x6000FFFF#32 State.reset).commands = [0x6000FFFF#32] := rfl
/-- One word for each clause, with `N = 3`; the last pair meets both errors. -/
theorem witness_ErrorPriority : IllegalWord 0x30508001#32 ∧
    (¬ IllegalWord 0x3050000A#32 ∧ outOfRangeWord Config.standard 0x3050000A#32) ∧
    (¬ IllegalWord 0x30300009#32 ∧ ¬ outOfRangeWord Config.standard 0x30300009#32 ∧
      doesNotExistWord Config.standard 0x30300009#32) ∧
    (¬ IllegalWord 0x30200009#32 ∧ ¬ outOfRangeWord Config.standard 0x30200009#32 ∧
      ¬ doesNotExistWord Config.standard 0x30200009#32) ∧
    doesNotExistWord Config.standard 0x3050000A#32 := by
  refine ⟨?_, ⟨?_, ?_⟩, ⟨?_, ?_, ?_⟩, ⟨?_, ?_, ?_⟩, ?_⟩ <;> decide
theorem witness_NoPartialEffect : (present 0x50300064#32 State.reset).commands = [0x50300064#32] ∧
    step (present 0x50300064#32 State.reset) = .next (answered State.reset 0x00000002#32) ∧
    (answered State.reset 0x00000002#32).responses = State.reset.responses ++ [0x00000002#32] ∧
    errField 0x00000002#32 ≠ 0#4 := ⟨rfl, rfl, rfl, by decide⟩
theorem witness_ErrorsOfEachCommand : errorOf Config.standard (.render 1000) ≠ 0#4 ∧
    errorOf Config.standard (.render 999) = 0#4 ∧ errorOf Config.standard (.strobe 3 0) ≠ 0#4 ∧
    errorOf serialBinary (.strobe 3 0) = 0#4 ∧ errorOf serialBinary (.strobe 4 0) ≠ 0#4 := by decide
theorem witness_EncodeResult : 9 < 10 ∧ 10 ≤ 10 := by decide
theorem witness_EncodeSeven : accepted State.reset.cfg = true ∧ accepted (fresh serialBinary).cfg = true := by decide
theorem witness_UpdateDirect : State.reset.cfg.backend = .direct ∧ 2 < State.reset.cfg.digits := by decide
theorem witness_UpdateSerial : (fresh serialBinary).cfg.backend = .serial Config.testMap ∧
    2 < (fresh serialBinary).cfg.digits ∧ (fresh serialBinary).lines.serClk = false ∧
    (fresh serialBinary).lines.serLatch = false := by decide
theorem witness_PulseMaskBits : srMapAccepted Config.testMap = true := by decide
theorem witness_ShiftOutAndLatch : (fresh serialBinary).lines.serClk = false ∧
    (fresh serialBinary).lines.serLatch = false := by decide
theorem witness_ShiftRegisterEdges : (fresh serialBinary).lines.serClk = false ∧
    (fresh serialBinary).lines.serLatch = false ∧
    ¬ (Event.write .serClk false = .write .serClk true ∧ (fresh serialBinary).lines.serClk = false) ∧
    ¬ (Event.write .serClk false = .write .serLatch true ∧ (fresh serialBinary).lines.serLatch = false) := by decide
theorem witness_UpdateIdempotent : BlockInv (fresh serialBinary) ∧ 2 < (fresh serialBinary).cfg.digits :=
  ⟨inv_serial, by decide⟩
theorem witness_FirstWrite : BlockInv (fresh serialBinary) ∧ 2 < (fresh serialBinary).cfg.digits ∧
    slotAt (fresh serialBinary) 2 = none := ⟨inv_serial, by decide, rfl⟩
/-- Segment A of 0x5B and 0x4F agrees, segment C does not; slot 1 is `Unwritten`. -/
theorem witness_DiffCorrect : BlockInv (holding Config.standard 0x5B#7) ∧ 0 < Config.standard.digits ∧
    slotAt (holding Config.standard 0x5B#7) 0 = some 0x5B#7 ∧ (0x5B#7)[(0 : Seg)] = (0x4F#7)[(0 : Seg)] ∧
    (0x5B#7)[(2 : Seg)] ≠ (0x4F#7)[(2 : Seg)] ∧ slotAt (holding Config.standard 0x5B#7) 1 = none :=
  ⟨inv_holding, by decide, rfl, by decide, by decide, rfl⟩
theorem witness_SamePatternNeverRedriven : BlockInv (holding Config.standard 0x5B#7) ∧
    0 < (holding Config.standard 0x5B#7).cfg.digits ∧ slotAt (holding Config.standard 0x5B#7) 0 = some 0x5B#7 :=
  ⟨inv_holding, by decide, rfl⟩
theorem witness_DisplayNumberResult : 2 < State.reset.cfg.digits ∧ State.reset.cfg.digits ≤ 3 := by decide
theorem witness_ClearPinsResult : State.reset.cfg.backend = .direct ∧
    (fresh serialBinary).cfg.backend = .serial Config.testMap ∧ (fresh serialBinary).lines.serClk = false ∧
    (fresh serialBinary).lines.serLatch = false := by decide
theorem witness_StrobeOneHot : State.reset.cfg.selector = .oneHot ∧ 2 < State.reset.cfg.digits ∧
    ∀ e : Nat, lineLevel State.reset.lines (.en e) = false := by
  refine ⟨rfl, by decide, fun e => ?_⟩
  show [false, false, false][e]?.getD false = false
  rcases e with _ | _ | _ | e <;> rfl
/-- The highest index of `K = 2`, at which no digit is wired. -/
theorem witness_StrobeBinary : (fresh serialBinary).cfg.selector = .binary 2 ∧
    (fresh serialBinary).lines.addr.length = 2 ∧ 3 < 2 ^ 2 ∧ (fresh serialBinary).cfg.digits ≤ 3 := by decide
/-- All four coil drives at once: segments A (on), B (off), C (both), D (released). -/
def fourDrives : State := { fresh Config.standard with
  lines := { Lines.low Config.standard with setL := 0x05#7, clrL := 0x06#7 } }
theorem witness_StrobeDisplay : fourDrives.plant.length = fourDrives.cfg.digits ∧ 2 < selectorBound fourDrives.cfg ∧
    2 < fourDrives.cfg.digits ∧ coilDrive fourDrives 0 = (true, false) ∧ coilDrive fourDrives 1 = (false, true) ∧
    coilDrive fourDrives 2 = (true, true) ∧ coilDrive fourDrives 3 = (false, false) ∧
    3 < selectorBound serialBinary ∧ serialBinary.digits ≤ 3 := by decide
theorem witness_CoilDriveLines : State.reset.cfg.backend = .direct ∧
    (fresh serialBinary).cfg.backend = .serial Config.testMap := by decide
theorem witness_DigitAtCases : (2 ≠ 0 ∧ 99 < 10 ^ 2) ∧ (2 ≠ 0 ∧ 10 ^ 2 ≤ 100) := by decide
theorem witness_DigitsSpellTheNumber : 1 ≤ 3 ∧ 999 < 10 ^ 3 := by decide
theorem witness_RenderResult : BlockInv (fresh serialBinary) ∧ 999 < 10 ^ (fresh serialBinary).cfg.digits :=
  ⟨inv_serial, by decide⟩
theorem witness_RenderDisplay : BlockInv (holding Config.standard 0x5B#7) ∧
    999 < 10 ^ (holding Config.standard 0x5B#7).cfg.digits := ⟨inv_holding, by decide⟩
theorem witness_RenderOutOfRange : 10 ^ State.reset.cfg.digits ≤ 1000 ∧ 5 ≤ (fresh directBinary).cfg.digits ∧
    (Instr.render 65535).wellFormed = true := by decide
theorem witness_RenderTwice : (BlockInv State.reset ∧ 999 < 10 ^ State.reset.cfg.digits) ∧
    accepted serialBinary = true ∧ 999 < 10 ^ serialBinary.digits := ⟨⟨inv_reset, by decide⟩, by decide, by decide⟩
/-- Levels and a register that are not those of reset. -/
def powerOn : State := { fresh serialBinary with
  lines := { Lines.low serialBinary with serClk := true, serLatch := true, addr := [true, true], enable := true }
  sr := ⟨0xBEEF#16, 0xFFFF#16⟩ }
theorem witness_ResetSequence : powerOn.lines.en.length = 0 ∧ powerOn.lines.addr.length = 2 ∧
    powerOn.cfg.selector = .binary 2 ∧ powerOn.cfg.backend = .serial Config.testMap ∧
    powerOn.lines.setL = 0#7 ∧ powerOn.lines.clrL = 0#7 ∧ powerOn.sr ≠ (State.resetOf serialBinary).sr := by decide
theorem witness_ResetSequence_direct : fourDrives.lines.en.length = fourDrives.cfg.digits ∧
    fourDrives.lines.addr.length = 0 ∧ fourDrives.cfg.selector = .oneHot ∧ fourDrives.lines.enable = false ∧
    fourDrives.cfg.backend = .direct ∧ fourDrives.lines.serData = false ∧ fourDrives.lines.serClk = false ∧
    fourDrives.lines.serLatch = false ∧ fourDrives.sr = ⟨0#16, 0#16⟩ := by decide
theorem witness_ResetValues : Config.standard.selector = .oneHot ∧ serialBinary.selector = .binary 2 ∧
    2 < Config.standard.digits ∧ serialBinary.backend = .serial Config.testMap ∧ ownsLine Config.standard (.en 2) ∧
    ownsLine serialBinary (.addr 1) :=
  ⟨rfl, rfl, by decide, rfl, ⟨rfl, by decide⟩, 2, rfl, by decide⟩
theorem witness_AbsentUnitsAtReset : ¬ ownsLine Config.standard (.en 3) ∧ ¬ ownsLine serialBinary (.setL 0) ∧
    Config.standard.backend = .direct ∧ Config.standard.selector = .oneHot ∧ serialBinary.selector = .binary 2 :=
  ⟨fun h => absurd h.2 (by decide), fun h => Backend.noConfusion (show Backend.serial Config.testMap = .direct from h),
    rfl, rfl, rfl⟩
theorem witness_ConstructionAccepts : acceptable { serialBinary with digits := 4 } ∧
    ¬ acceptable { serialBinary with digits := 5 } := by
  refine ⟨⟨by decide, by decide, fun k h => ?_, fun m h => ?_, by decide⟩, fun h => ?_⟩
  · cases h; decide
  · cases h; decide
  · exact absurd (h.2.2.1 2 rfl).2.2 (by decide)
theorem witness_InvAtReset : accepted serialBinary = true := by decide
theorem witness_StepKeepsInv : BlockInv (present 0x40000000#32 (fresh Config.standard)) ∧
    step (present 0x40000000#32 (fresh Config.standard)) = .next (done .clearPins (fresh Config.standard)) :=
  ⟨inv_presented, step_clear⟩
/-- A point inside a strobe, at which its position is enabled. -/
theorem witness_EveryEventSafe : BlockInv (present 0x50200005#32 (fresh Config.standard)) ∧
    step (present 0x50200005#32 (fresh Config.standard)) = .next (done (.strobe 2 5) (fresh Config.standard)) ∧
    [Event.write (.en 2) true] <+: (done (.strobe 2 5) (fresh Config.standard)).trace ∧
    enabledAt (perform [.write (.en 2) true] (fresh Config.standard)) 2 = true := ⟨inv_fresh, rfl, ⟨_, rfl⟩, by decide⟩
theorem witness_StepExtends : step (present 0x40000000#32 (fresh Config.standard)) =
    .next (done .clearPins (fresh Config.standard)) := step_clear
theorem witness_LinesFollowTrace : traceExplains State.reset := by unfold traceExplains; decide
theorem witness_SlotsNeverForgotten : slotAt (present 0x40000000#32 (holding Config.standard 0x5B#7)) 0 ≠ none ∧
    step (present 0x40000000#32 (holding Config.standard 0x5B#7)) =
      .next (done .clearPins (holding Config.standard 0x5B#7)) := ⟨by decide, rfl⟩
theorem witness_SlotAccess : exec (.update 0 0x07#7) State.reset = .next (done (.update 0 0x07#7) State.reset) ∧
    slotAt (done (.update 0 0x07#7) State.reset) 0 ≠ slotAt State.reset 0 ∧
    exec (.update 3 0x07#7) State.reset = .next (done (.update 3 0x07#7) State.reset) ∧
    errorOf State.reset.cfg (.update 3 0x07#7) ≠ 0#4 ∧
    exec (.strobe 0 5) State.reset = .next (done (.strobe 0 5) State.reset) := ⟨rfl, by decide, rfl, by decide, rfl⟩
theorem witness_LineOwnership : exec (.strobe 2 5) (fresh Config.standard) =
      .next (done (.strobe 2 5) (fresh Config.standard)) ∧
    (done (.strobe 2 5) (fresh Config.standard)).trace = [.write (.en 2) true, .wait 5, .write (.en 2) false] :=
  ⟨rfl, by decide⟩
theorem witness_DisplayChangedOnlyByStrobes : exec (.strobe 2 50) fourDrives = .next (done (.strobe 2 50) fourDrives) ∧
    plantAt (done (.strobe 2 50) fourDrives) 2 0 ≠ plantAt fourDrives 2 0 := ⟨rfl, by decide⟩
theorem witness_DisplayIsWriteOnly : exec (.render 7) (fresh Config.standard) =
    .next (done (.render 7) (fresh Config.standard)) := rfl

/-- Slot 0 updated and not yet strobed. -/
def updated : State := done (.update 0 0x07#7) (fresh Config.standard)
/-- The ledger then: slot 0 was unwritten before. -/
def waiting : Ledger := ⟨some 0, some (0, none), []⟩
theorem contract_updated : Contract waiting updated := by
  refine ⟨⟨by decide, rfl, rfl, rfl, rfl, rfl, rfl, by unfold coilsSafe; decide, ⟨rfl, rfl⟩, rfl⟩, ?_,
    fun d q h => by cases h; rfl, fun e h => ?_, fun d q p h hs k hz => ?_⟩
  · intro d k hd
    have hall : ∀ d : Fin 3, ∀ k : Seg, plantAt updated d k = displayed waiting updated d k := by decide
    exact hall ⟨d, hd⟩ k
  · cases h
    exact ⟨by decide, 0x07#7, rfl, by decide⟩
  · have hd : ∀ k : Seg, coilDrive updated k ≠ (false, false) := by decide
    exact absurd hz (hd k)
/-- At the boundary of (P1). -/
theorem witness_ContractStep : Contract waiting updated ∧ keepsProtocol updated waiting (.strobe 0 50) = true ∧
    keepsProtocol updated waiting (.strobe 0 49) = false ∧ keepsProtocol updated waiting .clearPins = false ∧
    exec (.strobe 0 50) updated = .next (done (.strobe 0 50) updated) :=
  ⟨contract_updated, by decide, by decide, by decide, rfl⟩
/-- An illegal word in the same place. -/
theorem witness_ContractStep_word : (present 0x70000000#32 updated).commands = [0x70000000#32] ∧
    Contract waiting (present 0x70000000#32 updated) ∧
    keepsProtocolWord (present 0x70000000#32 updated) waiting 0x70000000#32 = true ∧
    step (present 0x70000000#32 updated) = .next (answerIllegal updated) :=
  ⟨rfl, contract_updated, rfl, rfl⟩

/-- What a sequence of words kept from reset shows of digit 0, with what the ledger says of it. -/
def kept (ws : List Word) : Option (Option (Nat × Option Pattern) × List (Nat × Seg) × Option Pattern × Optical) :=
  (runProtocol ws Ledger.empty State.reset).map fun r => (r.1.pending, r.1.blurred, slotAt r.2 0, plantAt r.2 0 0)

/-- `DISP 0, 8; STROBE 0, 100; .word 0; DISP 0, 1; STROBE 0, 50; STROBE 0, 49`: the short last strobe blurs the
segments the update drove (8 to 1: A, D, E, F and G go off), and B and C stay as they were. -/
theorem witness_ContractFromReset :
    kept [0x30000008#32, 0x50000064#32, 0x00000000#32, 0x30000001#32, 0x50000032#32, 0x50000031#32] =
      some (none, [(0, 0), (0, 3), (0, 4), (0, 5), (0, 6)], some 0x06#7, .unknown) := by decide
/-- Every strobe holds for the flip time: nothing is blurred, at the end and with an update of digit 0 pending. -/
theorem witness_ContractWithFullHolds :
    kept [0x30000008#32, 0x50000032#32] = some (none, [], some 0x7F#7, .on) ∧
    kept [0x30000008#32, 0x50000032#32, 0x30000001#32] = some (some (0, some 0x7F#7), [], some 0x06#7, .on) :=
  ⟨by decide, by decide⟩
/-- The sequence of `test_short_restrobe` keeps (P1) to (P3) to its end, and the display does not show the slot. -/
theorem witness_ContractAsWritten :
    kept [0x30000008#32, 0x50000064#32, 0x5000000A#32] =
      some (none, [(0, 0), (0, 1), (0, 2), (0, 3), (0, 4), (0, 5), (0, 6)], some 0x7F#7, .unknown) := by decide

end Sys2Proof.Tests
end

