-- ==== Sys2Proof/Proofs/LineWrites.lean ====
section
/-! What a line write does to the level of each line, and the obligation O1 that follows. -/

namespace Sys2Proof.Machine

open Sys2Proof.Spec

/-- A line that is there takes the level written to it (40_segment.md R104). -/
theorem lineLevel_putLine_self {s : State} {l : Line} (h : hasLine s l) (b : Bool) :
    lineLevel (putLine s.lines l b) l = b := by
  cases l with
  | setL k => exact (getElem_setBit _ k.val b k.val k.isLt).trans (if_pos rfl)
  | clrL k => exact (getElem_setBit _ k.val b k.val k.isLt).trans (if_pos rfl)
  | en d =>
    have hd : d < s.lines.en.length := h
    simp [lineLevel, putLine, hd]
  | addr j =>
    have hj : j < s.lines.addr.length := h
    simp [lineLevel, putLine, hj]
  | serData | serClk | serLatch | enable => rfl

/-- A line write leaves every other line as it was, also one of the same row. -/
theorem lineLevel_putLine_of_ne {l l' : Line} (h : l' ≠ l) (x : Lines) (b : Bool) :
    lineLevel (putLine x l b) l' = lineLevel x l' := by
  cases l with
  | setL k =>
    cases l' with
    | setL j =>
      have hjk : j.val ≠ k.val := fun e => h (congrArg Line.setL (Fin.ext e))
      exact (getElem_setBit x.setL k.val b j.val j.isLt).trans (if_neg hjk)
    | _ => rfl
  | clrL k =>
    cases l' with
    | clrL j =>
      have hjk : j.val ≠ k.val := fun e => h (congrArg Line.clrL (Fin.ext e))
      exact (getElem_setBit x.clrL k.val b j.val j.isLt).trans (if_neg hjk)
    | _ => rfl
  | en d =>
    cases l' with
    | en e =>
      have hde : d ≠ e := fun eq => h (congrArg Line.en eq.symm)
      simp [lineLevel, putLine, List.getElem?_set_ne hde]
    | _ => rfl
  | addr i =>
    cases l' with
    | addr j =>
      have hij : i ≠ j := fun eq => h (congrArg Line.addr eq.symm)
      simp [lineLevel, putLine, List.getElem?_set_ne hij]
    | _ => rfl
  | serData => cases l' with
    | serData => exact absurd rfl h
    | _ => rfl
  | serClk => cases l' with
    | serClk => exact absurd rfl h
    | _ => rfl
  | serLatch => cases l' with
    | serLatch => exact absurd rfl h
    | _ => rfl
  | enable => cases l' with
    | enable => exact absurd rfl h
    | _ => rfl

/-- The lines after a line write are those `putLine` makes. -/
@[simp] theorem emit_write_lines (s : State) (l : Line) (b : Bool) :
    (emit s (.write l b)).lines = putLine s.lines l b := rfl

/-- Everything one event can do: it moves lines and shift register and is recorded. -/
theorem emit_eq (s : State) (e : Event) : emit s e =
    { s with lines := (emit s e).lines, sr := (emit s e).sr, trace := s.trace ++ [e] } :=
  perform_eq [e] s

/-- A wait is recorded and reaches nothing else (00_scope.md R12). -/
theorem emit_wait (s : State) (ms : Nat) : emit s (.wait ms) = { s with trace := s.trace ++ [.wait ms] } := rfl

/-- Settles O1: the line's own level and the other lines' levels are facts about `putLine`, by cases on the kind of
line; the rest of the state is the frame of one event. -/
theorem lineWrites : Obligations.LineWrites := by
  intro s l b
  refine ⟨fun hl => ?_, fun l' hne => ?_, emit_eq s (.write l b), emit_wait s⟩
  · rw [emit_write_lines, lineLevel_putLine_self hl]
  · rw [emit_write_lines, lineLevel_putLine_of_ne hne]

end Sys2Proof.Machine
end

