-- ==== Sys2Proof/Proofs/Commands.lean ====
section
/-! What a command can do, said once: it meets its error and answers it, or it does its work and answers that. A
relation between states that the units' operations keep is kept by every command, the render pass included. -/

namespace Sys2Proof.Machine

open Sys2Proof.Spec

/-! ## The two outcomes of a command -/

theorem digitOf_eq_none_iff (v : Value) : digitOf v = none ↔ valueOutOfRange v = true := by
  cases v with
  | blank => simp [digitOf, valueOutOfRange]
  | number n => simp [digitOf, valueOutOfRange]

/-- A value code in range stands for the pattern of its digit (41_digit_controller.md R120, R121). -/
theorem digitOf_of_inRange (c : Config) {v : Value} (h : valueOutOfRange v ≠ true) :
    ∃ n, digitOf v = some n ∧ patternOf c v = encodeDigit c n := by
  cases hv : digitOf v with
  | none => exact absurd ((digitOf_eq_none_iff v).1 hv) h
  | some n => exact ⟨n, rfl, by simp [patternOf, hv]⟩

/-- What a command that meets no error answers as `changed` and `DATA`, and the state it leaves before the answer. -/
def commandResult (i : Instr) (s : State) : Bool × Mask × State :=
  match i with
  | .encode v          => (false, (patternOf s.cfg v).setWidth 16, s)
  | .update d p        => updateSlot d p s
  | .displayNumber d v => updateSlot d (patternOf s.cfg v) s
  | .clearPins         => (false, 0#16, releaseAll s)
  | .strobe d ms       => (false, 0#16, strobe d ms s)
  | .render n          =>
    let a := renderPositions n s
    (a.any, a.strobed, perform [.wait (releaseAll a.state).cfg.refreshMs] (releaseAll a.state))

/-- The answer to a command that meets no error. -/
def succeed (i : Instr) (s : State) : State :=
  respond .ok (commandResult i s).1 (commandResult i s).2.1 (commandResult i s).2.2

/-- The bound of the selector index space is the one the error code tests (43_selector.md R180). -/
theorem errorOf_strobe (c : Config) (d ms : Nat) :
    errorOf c (.strobe d ms) = if selectorExists c d then 0#4 else 2#4 := by
  unfold errorOf selectorExists selectorCount
  cases c.selector with
  | oneHot => by_cases h : d < c.digits <;> simp [h, Nat.not_le.2, Nat.not_lt.1]
  | binary k => by_cases h : d < 2 ^ k <;> simp [h, Nat.not_le.2, Nat.not_lt.1]

/-- A command without an error does its work (60_exceptions.md R241, R242). -/
theorem exec_of_ok {i : Instr} {s : State} (h : errorOf s.cfg i = 0#4) : exec i s = .next (succeed i s) := by
  cases i with
  | encode v =>
    have hv : valueOutOfRange v ≠ true := fun hv => by simp [errorOf, hv] at h
    obtain ⟨n, hn, hp⟩ := digitOf_of_inRange s.cfg hv
    simp [exec, execEncode, hn, succeed, commandResult, hp]
  | update d p =>
    have hd : d < s.cfg.digits := by
      by_contra hd; simp [errorOf, Nat.not_lt.1 hd] at h
    simp [exec, execUpdate, slotExists, hd, succeed, commandResult, updateAndRespond]
  | displayNumber d v =>
    have hv : valueOutOfRange v ≠ true := fun hv => by simp [errorOf, hv] at h
    have hd : d < s.cfg.digits := by
      by_contra hd; simp [errorOf, hv, Nat.not_lt.1 hd] at h
    obtain ⟨n, hn, hp⟩ := digitOf_of_inRange s.cfg hv
    simp [exec, execDisplayNumber, hn, slotExists, hd, succeed, commandResult, hp, updateAndRespond]
  | clearPins => rfl
  | strobe d ms =>
    have hd : selectorExists s.cfg d = true := by
      by_contra hd; simp [errorOf_strobe, hd] at h
    simp [exec, execStrobe, hd, succeed, commandResult]
  | render n =>
    have hn : n < 10 ^ s.cfg.digits := by
      by_contra hn; simp [errorOf, Nat.not_lt.1 hn] at h
    simp [exec, execRender, renderFits, hn, succeed, commandResult, renderPass]

/-- A command with an error only answers it, and which error that is depends on the configuration alone
(60_exceptions.md R241, R242, R244). -/
theorem exec_of_error {c : Config} {i : Instr} (h : errorOf c i ≠ 0#4) :
    ∃ e, errCode e = errorOf c i ∧ ∀ s : State, s.cfg = c → exec i s = .next (raise e s) := by
  cases i with
  | encode v =>
    have hv : valueOutOfRange v = true := by by_contra hv; simp [errorOf, hv] at h
    exact ⟨.outOfRange, by simp [errorOf, hv, errCode], fun s _ => by
      simp [exec, execEncode, (digitOf_eq_none_iff v).2 hv]⟩
  | update d p =>
    have hd : c.digits ≤ d := by by_contra hd; simp [errorOf, hd] at h
    exact ⟨.doesNotExist, by simp [errorOf, hd, errCode], fun s hs => by
      simp [exec, execUpdate, slotExists, hs, hd]⟩
  | displayNumber d v =>
    by_cases hv : valueOutOfRange v = true
    · exact ⟨.outOfRange, by simp [errorOf, hv, errCode], fun s _ => by
        simp [exec, execDisplayNumber, (digitOf_eq_none_iff v).2 hv]⟩
    · have hd : c.digits ≤ d := by by_contra hd; simp [errorOf, hv, hd] at h
      obtain ⟨n, hn, -⟩ := digitOf_of_inRange c hv
      exact ⟨.doesNotExist, by simp [errorOf, hv, hd, errCode], fun s hs => by
        simp [exec, execDisplayNumber, hn, slotExists, hs, hd]⟩
  | clearPins => exact absurd rfl h
  | strobe d ms =>
    rw [errorOf_strobe] at h ⊢
    have hd : selectorExists c d ≠ true := fun hd => by simp [hd] at h
    exact ⟨.doesNotExist, by simp [hd, errCode], fun s hs => by simp [exec, execStrobe, hs, hd]⟩
  | render n =>
    have hn : 10 ^ c.digits ≤ n := by by_contra hn; simp [errorOf, hn] at h
    exact ⟨.outOfRange, by simp [errorOf, hn, errCode], fun s hs => by
      simp [exec, execRender, renderFits, hs, hn]⟩

/-- Everything a command can do: answer its error, or do its work and answer that (60_exceptions.md R244). -/
theorem exec_cases {i : Instr} {s t : State} (h : exec i s = .next t) :
    (errorOf s.cfg i ≠ 0#4 ∧ ∃ e, t = raise e s) ∨ (errorOf s.cfg i = 0#4 ∧ t = succeed i s) := by
  by_cases he : errorOf s.cfg i = 0#4
  · rw [exec_of_ok he] at h
    exact .inr ⟨he, by injection h with h; exact h.symm⟩
  · obtain ⟨e, -, hx⟩ := exec_of_error he
    rw [hx s rfl] at h
    exact .inl ⟨he, e, by injection h with h; exact h.symm⟩

/-! ## Relations that every command keeps -/

/-- `R` relates each state to what the operations of the units that command `i` uses make of it; a one-hot strobe is
one of a wired digit. -/
structure KeptBy (i : Instr) (R : State → State → Prop) : Prop where
  refl : ∀ s, R s s
  trans : ∀ {s t u}, R s t → R t u → R s u
  wait : ∀ ms s, R s (perform [.wait ms] s)
  update : drivesCoils i = true → ∀ d p s, R s (updateSlot d p s).2.2
  release : drivesCoils i = true → ∀ s, R s (releaseAll s)
  strobed : strobes i = true → ∀ d ms s, (s.cfg.selector = .oneHot → d < s.cfg.digits) → R s (strobe d ms s)

theorem passPrefix_cfg (n s m) : (passPrefix n s m).state.cfg = s.cfg := by
  obtain ⟨es, h⟩ := Emits_passPrefix n s m
  exact h.1

/-- The positions of a pass update and strobe wired digits only (44_render.md R203). -/
theorem KeptBy.of_passPrefix {R : State → State → Prop} {n : Nat} (hR : KeptBy (.render n) R) (s : State) {m : Nat}
    (hm : m ≤ s.cfg.digits) : R s (passPrefix n s m).state := by
  induction m with
  | zero => exact hR.refl s
  | succ m ih =>
    have hu := hR.trans (ih (by omega))
      (hR.update rfl m (positionPattern (passPrefix n s m).state.cfg n m) _)
    rw [passPrefix_succ]
    rcases renderPosition_state n m (passPrefix n s m) with h | h <;> rw [h]
    · exact hu
    · refine hR.trans hu (hR.strobed rfl m _ _ fun _ => ?_)
      rw [updateSlot_cfg, passPrefix_cfg]; omega

/-- A relation that the operations of its units keep is kept by a command that meets no error. -/
theorem KeptBy.of_commandResult {i : Instr} {R : State → State → Prop} (hR : KeptBy i R) {s : State}
    (h : errorOf s.cfg i = 0#4) : R s (commandResult i s).2.2 := by
  cases i with
  | encode v => exact hR.refl s
  | update d p => exact hR.update rfl d p s
  | displayNumber d v => exact hR.update rfl d _ s
  | clearPins => exact hR.release rfl s
  | strobe d ms =>
    refine hR.strobed rfl d ms s fun hs => ?_
    by_contra hd
    simp [errorOf, hs, Nat.not_lt.1 hd] at h
  | render n => exact hR.trans (hR.trans (hR.of_passPrefix s le_rfl) (hR.release rfl _)) (hR.wait _ _)

/-- A relation that the operations of its units keep holds between the state before a command and the one it answers
on: the next state is that one with its response. -/
theorem KeptBy.of_exec {i : Instr} {R : State → State → Prop} (hR : KeptBy i R) {s t : State}
    (h : exec i s = .next t) : ∃ e c x u, t = respond e c x u ∧ R s u := by
  rcases exec_cases h with ⟨-, e, rfl⟩ | ⟨hok, rfl⟩
  · exact ⟨e, false, 0#16, s, rfl, hR.refl s⟩
  · exact ⟨_, _, _, _, rfl, hR.of_commandResult hok⟩

/-! ## What every command leaves -/

/-- What no operation of the units takes away: the configuration and the two ports stay, the trace only grows, and
slots and display rows stay in place, a written slot written. -/
structure Extends (s t : State) : Prop where
  cfg : t.cfg = s.cfg
  commands : t.commands = s.commands
  responses : t.responses = s.responses
  trace : s.trace <+: t.trace
  slots_length : t.slots.length = s.slots.length
  plant_length : t.plant.length = s.plant.length
  written : ∀ d, slotAt s d ≠ none → slotAt t d ≠ none

theorem Extends_refl (s : State) : Extends s s := ⟨rfl, rfl, rfl, List.prefix_rfl, rfl, rfl, fun _ h => h⟩

theorem Extends_trans {s t u : State} (h : Extends s t) (k : Extends t u) : Extends s u where
  cfg := k.cfg.trans h.cfg
  commands := k.commands.trans h.commands
  responses := k.responses.trans h.responses
  trace := h.trace.trans k.trace
  slots_length := k.slots_length.trans h.slots_length
  plant_length := k.plant_length.trans h.plant_length
  written d hd := k.written d (h.written d hd)

theorem Extends_perform (es : List Event) (s : State) : Extends s (perform es s) where
  cfg := perform_cfg es s
  commands := perform_commands es s
  responses := perform_responses es s
  trace := ⟨es, (perform_trace es s).symm⟩
  slots_length := by simp
  plant_length := by simp
  written d hd := by rwa [slotAt_congr (perform_slots es s)]

/-- A slot write is the only write of a slot, and what it leaves is a pattern (10_state.md R23). -/
theorem Extends_writeSlot (d : Nat) (p : Pattern) (s : State) : Extends s (writeSlot d p s) where
  cfg := rfl
  commands := rfl
  responses := rfl
  trace := List.prefix_rfl
  slots_length := by simp
  plant_length := rfl
  written e he := by rw [slotAt_writeSlot]; split <;> simp [he]

theorem Extends_updateSlot (d : Nat) (p : Pattern) (s : State) : Extends s (updateSlot d p s).2.2 := by
  rw [updateSlot_eq]
  exact Extends_trans (Extends_perform _ s) (Extends_writeSlot d p _)

theorem Extends_releaseAll (s : State) : Extends s (releaseAll s) := by
  rw [releaseAll_eq]; exact Extends_perform _ s

theorem Extends_strobe (d ms : Nat) (s : State) : Extends s (strobe d ms s) where
  cfg := strobe_cfg d ms s
  commands := strobe_commands d ms s
  responses := strobe_responses d ms s
  trace := ⟨_, (strobe_trace d ms s).symm⟩
  slots_length := by simp
  plant_length := strobe_plant_length d ms s
  written e he := by rwa [slotAt_congr (strobe_slots d ms s)]

theorem keptBy_extends (i : Instr) : KeptBy i Extends where
  refl := Extends_refl
  trans := Extends_trans
  wait _ s := Extends_perform _ s
  update _ := Extends_updateSlot
  release _ := Extends_releaseAll
  strobed _ d ms s _ := Extends_strobe d ms s

/-- Everything a step can do to what lasts: nothing, or one command taken, performed and answered with one response
(10_state.md R36, R37). -/
theorem step_extends {s t : State} (h : step s = .next t) :
    t = s ∨ ∃ w rest e c x u, s.commands = w :: rest ∧ t = respond e c x u ∧ Extends (takeCommand rest s) u := by
  rcases step_cases s with ⟨-, hs⟩ | ⟨w, rest, i, hc, -, hs⟩ | ⟨w, rest, why, hc, -, hs⟩ <;> rw [hs] at h
  · injection h with h
    exact .inl h.symm
  · obtain ⟨e, c, x, u, ht, hu⟩ := (keptBy_extends i).of_exec h
    exact .inr ⟨w, rest, e, c, x, u, hc, ht, hu⟩
  · injection h with h
    exact .inr ⟨w, rest, .illegal, false, 0#16, _, hc, h.symm, Extends_refl _⟩

/-- The events of a step explain its trace, lines and shift register (10_state.md R33). -/
theorem step_emits {s t : State} (h : step s = .next t) : ∃ es, Emits s t es := by
  rcases step_cases s with ⟨-, hs⟩ | ⟨w, rest, i, hc, -, hs⟩ | ⟨w, rest, why, hc, -, hs⟩ <;> rw [hs] at h
  · injection h with h
    exact ⟨[], h ▸ Emits_refl s⟩
  · obtain ⟨u, es, hu, he⟩ := exec_emits i (takeCommand rest s)
    rw [hu] at h
    injection h with h
    exact ⟨es, h ▸ he⟩
  · injection h with h
    exact ⟨[], h ▸ Emits_refl s⟩

end Sys2Proof.Machine
end

