-- ==== Sys2Proof/Proofs/StepRules.lean ====
section
/-! What a step performs, and what it leaves of the configuration, the trace, the ports and the slots: O43, O44, O45,
O6, O7. -/

namespace Sys2Proof.Machine

open Sys2Proof.Spec

/-! ## The trace explains the levels -/

/-- The trace explains the levels: it leads from the low levels of reset to those of the state. -/
theorem traceExplains_iff (s : State) :
    traceExplains s ↔ levelsAfter s.trace (Lines.low s.cfg, ⟨0#16, 0#16⟩) = (s.lines, s.sr) := by
  unfold traceExplains
  rw [← Prod.mk.injEq, perform_levels]
  rfl

/-- The reset sequence leaves low lines low and a cleared register cleared (70_reset_and_hazards.md R271). -/
theorem levelsAfter_resetEvents (c : Config) :
    levelsAfter (resetEvents c) (Lines.low c, ⟨0#16, 0#16⟩) = (Lines.low c, ⟨0#16, 0#16⟩) := by
  have hen : (Lines.low c).en.length = (match c.selector with | .oneHot => c.digits | .binary _ => 0) := by
    unfold Lines.low; cases c.selector <;> simp
  have haddr : (Lines.low c).addr.length = (match c.selector with | .oneHot => 0 | .binary k => k) := by
    unfold Lines.low; cases c.selector <;> simp
  rw [resetEvents, levelsAfter_append, levelsAfter_resetSelector c _ hen haddr fun _ => rfl]
  cases c.backend with
  | direct => rw [levelsAfter_resetDirect]; rfl
  | serial m => rw [levelsAfter_resetSerial]; rfl

/-- Events that are recorded as they happen keep the trace an explanation (10_state.md R33). -/
theorem traceExplains_of_emits {s t : State} {es : List Event} (h : Emits s t es) (hs : traceExplains s) :
    traceExplains t := by
  obtain ⟨hcfg, htrace, hlevels⟩ := h
  rw [traceExplains_iff] at hs ⊢
  rw [hcfg, htrace, levelsAfter_append, hs, hlevels]

/-- Settles O43: the reset sequence acts on low levels and leaves them low, and a step records every event that moves
a level. -/
theorem linesFollowTrace : Obligations.LinesFollowTrace := by
  refine ⟨fun c => ?_, fun s t hs hstep => ?_⟩
  · rw [traceExplains_iff]; exact levelsAfter_resetEvents c
  · obtain ⟨es, he⟩ := step_emits hstep
    exact traceExplains_of_emits he hs

/-! ## What a step leaves -/

/-- Settles O44: a step is idle, or takes one word, extends the rest of the state and adds one response. -/
theorem stepExtends : Obligations.StepExtends := by
  intro s t h
  rcases step_extends h with rfl | ⟨w, rest, e, c, x, u, hc, rfl, hu⟩
  · exact ⟨rfl, List.prefix_rfl, List.prefix_rfl, List.suffix_rfl, rfl, rfl⟩
  · have hresp : s.responses <+: (respond e c x u).responses := ⟨[responseWord e c x], by simp [hu.responses]⟩
    have hcom : (respond e c x u).commands <:+ s.commands := by
      rw [hc, respond_commands, hu.commands]; exact List.suffix_cons w rest
    exact ⟨hu.cfg, hu.trace, hresp, hcom, hu.slots_length, hu.plant_length⟩

/-- Settles O45: what takes no written slot away is kept by every command, and answering touches no slot. -/
theorem slotsNeverForgotten : Obligations.SlotsNeverForgotten := by
  intro s t d h hd
  rcases step_extends h with rfl | ⟨w, rest, e, c, x, u, -, rfl, hu⟩
  · exact hd
  · exact hu.written d hd

/-! ## What a step performs -/

/-- Settles O6: the arm of the step for a word that decodes to a command. -/
theorem stepRunsCommand : Obligations.StepRunsCommand := by
  intro s w rest i hc hd
  simp only [step, hc, hd]
  rfl

/-- Settles O7: the arm of the step for an empty port. -/
theorem stepIdle : Obligations.StepIdle := by
  intro s hc
  simp only [step, hc]

end Sys2Proof.Machine
end

