-- ==== Sys2Proof/Proofs/SlotAccess.lean ====
section
/-! Which commands read and write a slot: O46. -/

namespace Sys2Proof.Machine

/-- The state with slot `d` replaced. -/
def setSlot (d : Nat) (x : Option Pattern) (s : State) : State := { s with slots := s.slots.set d x }

/-- Command `i` may read and write slot `d`. -/
def usesSlot (i : Instr) (d : Nat) : Prop :=
  (∃ p, i = .update d p) ∨ (∃ v, i = .displayNumber d v) ∨ ∃ n, i = .render n

theorem not_usesSlot_iff (i : Instr) (d : Nat) : ¬ usesSlot i d ↔
    (∀ p, i ≠ .update d p) ∧ (∀ v, i ≠ .displayNumber d v) ∧ ∀ n, i ≠ .render n := by
  simp [usesSlot]

theorem slotAt_setSlot_of_ne {d e : Nat} (h : e ≠ d) (x : Option Pattern) (s : State) :
    slotAt (setSlot d x s) e = slotAt s e := by
  simp [slotAt, setSlot, List.getElem?_set_ne (Ne.symm h)]

/-! ## The operations of the units beside a slot they do not use -/

theorem perform_setSlot (d x es s) : perform es (setSlot d x s) = setSlot d x (perform es s) := by
  apply state_ext <;> simp [setSlot, perform_lines, perform_sr]

theorem writeSlot_setSlot {d e : Nat} (h : e ≠ d) (x p s) :
    writeSlot e p (setSlot d x s) = setSlot d x (writeSlot e p s) := by
  simp [writeSlot, setSlot, List.set_comm _ _ h]

theorem strobePlant_setSlot (d x e ms s) : strobePlant e ms (setSlot d x s) = setSlot d x (strobePlant e ms s) := by
  unfold strobePlant
  by_cases he : e < s.cfg.digits
  · rw [if_pos he, if_pos (show e < (setSlot d x s).cfg.digits from he)]; rfl
  · rw [if_neg he, if_neg (show ¬ e < (setSlot d x s).cfg.digits from he)]

theorem updateSlot_setSlot {d e : Nat} (h : e ≠ d) (x p s) : updateSlot e p (setSlot d x s) =
    ((updateSlot e p s).1, (updateSlot e p s).2.1, setSlot d x (updateSlot e p s).2.2) := by
  simp only [updateSlot_eq, slotAt_setSlot_of_ne h, perform_setSlot, writeSlot_setSlot h]
  rfl

theorem releaseAll_setSlot (d x s) : releaseAll (setSlot d x s) = setSlot d x (releaseAll s) := by
  rw [releaseAll_eq, releaseAll_eq, perform_setSlot]; rfl

theorem strobe_setSlot (d x e ms s) : strobe e ms (setSlot d x s) = setSlot d x (strobe e ms s) := by
  unfold strobe
  rw [perform_setSlot, strobePlant_setSlot]; rfl

theorem slotAt_updateSlot_of_ne {d e : Nat} (h : e ≠ d) (p s) : slotAt (updateSlot e p s).2.2 d = slotAt s d := by
  simp [slotAt, updateSlot_slots, List.getElem?_set_ne h]

/-! ## Commands beside a slot they do not use -/

/-- A command leaves a slot it does not use (10_state.md R24). -/
theorem slotAt_succeed_of_not_usesSlot {i : Instr} {d : Nat} (h : ¬ usesSlot i d) (s : State) :
    slotAt (succeed i s) d = slotAt s d := by
  obtain ⟨hu, hn, hr⟩ := (not_usesSlot_iff i d).1 h
  cases i with
  | encode v => rfl
  | update e p => exact slotAt_updateSlot_of_ne (fun he => hu p (congrArg (Instr.update · p) he)) p s
  | displayNumber e v => exact slotAt_updateSlot_of_ne (fun he => hn v (congrArg (Instr.displayNumber · v) he)) _ s
  | clearPins => exact slotAt_congr (releaseAll_slots s) d
  | strobe e ms => exact slotAt_congr (strobe_slots e ms s) d
  | render n => exact absurd rfl (hr n)

/-- A command does not read a slot it does not use (10_state.md R24). -/
theorem succeed_setSlot_of_not_usesSlot {i : Instr} {d : Nat} (h : ¬ usesSlot i d) (x : Option Pattern) (s : State) :
    succeed i (setSlot d x s) = setSlot d x (succeed i s) := by
  obtain ⟨hu, hn, hr⟩ := (not_usesSlot_iff i d).1 h
  cases i with
  | encode v => rfl
  | update e p =>
    have he : e ≠ d := fun he => hu p (congrArg (Instr.update · p) he)
    simp only [succeed, commandResult, updateSlot_setSlot he]; rfl
  | displayNumber e v =>
    have he : e ≠ d := fun he => hn v (congrArg (Instr.displayNumber · v) he)
    simp only [succeed, commandResult, updateSlot_setSlot he]; rfl
  | clearPins => simp only [succeed, commandResult, releaseAll_setSlot]; rfl
  | strobe e ms => simp only [succeed, commandResult, strobe_setSlot]; rfl
  | render n => exact absurd rfl (hr n)

/-- Settles O46: an errored command only answers, and a successful one leaves and ignores every slot it does not
use. -/
theorem slotAccess : Obligations.SlotAccess := by
  intro i s t d h
  refine ⟨fun hne => ?_, fun hno x => ?_⟩
  · rcases exec_cases h with ⟨-, e, rfl⟩ | ⟨hok, rfl⟩
    · exact absurd rfl hne
    · by_contra hcon
      exact hne (slotAt_succeed_of_not_usesSlot (fun hu => hcon ⟨hok, hu⟩) s)
  · by_cases hok : errorOf s.cfg i = 0#4
    · have hu : ¬ usesSlot i d := (not_usesSlot_iff i d).2 (hno.resolve_left (not_not_intro hok))
      rw [exec_of_ok hok] at h
      injection h with h
      rw [← h]
      exact (exec_of_ok (s := setSlot d x s) hok).trans (congrArg _ (succeed_setSlot_of_not_usesSlot hu x s))
    · obtain ⟨e, -, he⟩ := exec_of_error hok
      rw [he s rfl] at h
      injection h with h
      rw [← h]
      exact he _ rfl

end Sys2Proof.Machine
end

