-- ==== Sys2Proof/Proofs/LineOwnership.lean ====
section
/-! Which lines the events of each unit write, and so those of each command: O47. -/

namespace Sys2Proof.Machine

open Sys2Proof.Spec

/-! ## The lines of each unit's events -/

/-- If the event writes a line, that line satisfies `P`. -/
def writesOnly (P : Line → Prop) : Event → Prop
  | .write l _ => P l
  | .wait _    => True

theorem writesOnly_mono {P Q : Line → Prop} (h : ∀ l, P l → Q l) {e : Event} (he : writesOnly P e) :
    writesOnly Q e := by
  cases e with
  | write l b => exact h l he
  | wait ms => trivial

/-- A line of the back end the configuration has (10_state.md R25, R26). -/
def isBackendLine (c : Config) (l : Line) : Prop := ownsLine c l ∧ isSelectorLine l = false

/-- A line of the selector the configuration has (10_state.md R28). -/
def isOwnSelectorLine (c : Config) (l : Line) : Prop := ownsLine c l ∧ isSelectorLine l = true

theorem updateEvents_writesOnly {c : Config} (hb : c.backend = .direct) (diff p : Pattern) :
    ∀ e ∈ updateEvents diff p, writesOnly (isBackendLine c) e := by
  intro e he
  obtain ⟨k, -, hk⟩ := List.mem_flatMap.1 he
  have hpair : ∃ b, e = .write (.setL k) b ∨ e = .write (.clrL k) b := by
    unfold driveEvents releaseEvents at hk
    split_ifs at hk <;> simp only [List.mem_cons, List.not_mem_nil, or_false] at hk <;>
      rcases hk with rfl | rfl <;> simp
  obtain ⟨b, rfl | rfl⟩ := hpair <;> exact ⟨hb, rfl⟩

theorem shiftEvents_writesOnly {c : Config} {m : SrMap} (hb : c.backend = .serial m) (w : Mask) :
    ∀ e ∈ shiftEvents w, writesOnly (isBackendLine c) e := by
  intro e he
  rcases List.mem_append.1 he with he | he
  · obtain ⟨j, -, hj⟩ := List.mem_flatMap.1 he
    simp only [clockEvents, List.mem_cons, List.not_mem_nil, or_false] at hj
    rcases hj with rfl | rfl | rfl <;> exact ⟨⟨m, hb⟩, rfl⟩
  · simp only [List.mem_cons, List.not_mem_nil, or_false] at he
    rcases he with rfl | rfl <;> exact ⟨⟨m, hb⟩, rfl⟩

/-- An update writes lines of the back end the configuration has (10_state.md R38). -/
theorem slotEvents_writesOnly (c : Config) (old : Option Pattern) (p : Pattern) :
    ∀ e ∈ slotEvents c.backend old p, writesOnly (isBackendLine c) e := by
  unfold slotEvents
  cases hb : c.backend with
  | direct => exact updateEvents_writesOnly hb _ _
  | serial m => exact shiftEvents_writesOnly hb _

/-- A strobe writes lines of the selector the configuration has, a one-hot one if its digit is wired
(43_selector.md R181, R182). -/
theorem strobeEvents_writesOnly {c : Config} {d : Nat} (hd : c.selector = .oneHot → d < c.digits) (ms : Nat) :
    ∀ e ∈ strobeEvents c d ms, writesOnly (isOwnSelectorLine c) e := by
  intro e he
  unfold strobeEvents at he
  cases hs : c.selector with
  | oneHot =>
    simp only [hs, strobeOneHotEvents, List.mem_cons, List.not_mem_nil, or_false] at he
    rcases he with rfl | rfl | rfl
    · exact ⟨⟨hs, hd hs⟩, rfl⟩
    · trivial
    · exact ⟨⟨hs, hd hs⟩, rfl⟩
  | binary k =>
    simp only [hs, strobeBinaryEvents, List.mem_append, List.mem_map, List.mem_range, List.mem_cons,
      List.not_mem_nil, or_false] at he
    rcases he with ⟨j, hj, rfl⟩ | rfl | rfl | rfl
    · exact ⟨⟨k, hs, hj⟩, rfl⟩
    · exact ⟨⟨k, hs⟩, rfl⟩
    · trivial
    · exact ⟨⟨k, hs⟩, rfl⟩

/-! ## The lines of a command -/

theorem mayWrite_backendLine {c : Config} {i : Instr} (hi : drivesCoils i = true) (l : Line)
    (h : isBackendLine c l) : mayWrite c i l := by
  obtain ⟨hl, hsel⟩ := h
  exact ⟨hl, by rw [hsel]; exact hi⟩

theorem mayWrite_selectorLine {c : Config} {i : Instr} (hi : strobes i = true) (l : Line)
    (h : isOwnSelectorLine c l) : mayWrite c i l := by
  obtain ⟨hl, hsel⟩ := h
  exact ⟨hl, by rw [hsel]; exact hi⟩

/-- `t` comes from `s` by events that write only lines command `i` may write. -/
def EmitsOwned (i : Instr) (s t : State) : Prop :=
  ∃ es, Emits s t es ∧ ∀ e ∈ es, writesOnly (mayWrite s.cfg i) e

theorem EmitsOwned_trans {i : Instr} {s t u : State} (h : EmitsOwned i s t) (k : EmitsOwned i t u) :
    EmitsOwned i s u := by
  obtain ⟨es, hes, hown⟩ := h
  obtain ⟨fs, hfs, kown⟩ := k
  refine ⟨es ++ fs, Emits_trans hes hfs, fun e he => ?_⟩
  obtain ⟨hcfg, -, -⟩ := hes
  rw [hcfg] at kown
  exact (List.mem_append.1 he).elim (hown e) (kown e)

/-- Update and release write the lines of the back end, a strobe those of the selector (10_state.md R38, R40). -/
theorem keptBy_emitsOwned (i : Instr) : KeptBy i (EmitsOwned i) where
  refl s := ⟨[], Emits_refl s, by simp⟩
  trans := EmitsOwned_trans
  wait ms s := ⟨_, Emits_perform _ s, by simp [writesOnly]⟩
  update hi d p s := ⟨_, Emits_updateSlot d p s, fun e he =>
    writesOnly_mono (mayWrite_backendLine hi) (slotEvents_writesOnly s.cfg _ p e he)⟩
  release hi s := by
    refine ⟨_, Emits_releaseAll s, fun e he => writesOnly_mono (mayWrite_backendLine hi) ?_⟩
    cases hb : s.cfg.backend with
    | direct =>
      rw [hb, clearEvents_eq] at he
      exact updateEvents_writesOnly hb _ _ e he
    | serial m =>
      rw [hb] at he
      exact shiftEvents_writesOnly hb _ e he
  strobed hi d ms s hd := ⟨_, Emits_strobe d ms s, fun e he =>
    writesOnly_mono (mayWrite_selectorLine hi) (strobeEvents_writesOnly hd ms e he)⟩

/-- Settles O47: the events of a command are those of its units, and a response is none. -/
theorem lineOwnership : Obligations.LineOwnership := by
  intro i s t h
  obtain ⟨_, _, _, u, rfl, es, ⟨-, htrace, hlevels⟩, hown⟩ := (keptBy_emitsOwned i).of_exec h
  rw [← perform_levels, Prod.mk.injEq] at hlevels
  exact ⟨es, htrace, hlevels.1, hlevels.2, fun l b he => hown _ he⟩

end Sys2Proof.Machine
end

