-- ==== Sys2Proof/Proofs/ResetState.lean ====
section
/-! The state after reset, element by element: O37, O38, O40. -/

namespace Sys2Proof.Machine

open Sys2Proof.Spec

/-! ## The events of the reset sequence -/

theorem segments_eq_finRange : segments = List.finRange 7 := by decide

theorem clearEvents_eq_clearTrace : clearEvents = clearTrace .direct := by
  rw [clearEvents, segments_eq_finRange]; rfl

theorem shiftOrder_eq : shiftOrder = (List.range 16).map (15 - ·) := by decide

/-- The 50 writes of a serialisation, as the spec lists them (42_serial_expander.md R155). -/
theorem shiftEvents_eq_shiftTrace (w : Mask) : shiftEvents w = shiftTrace w := by
  rw [shiftEvents, shiftOrder_eq, List.flatMap_map]; rfl

/-- The line writes of the reset sequence are those the spec lists (70_reset_and_hazards.md R271). -/
theorem resetEvents_eq_resetTrace (c : Config) : resetEvents c = resetTrace c := by
  unfold resetEvents resetTrace
  refine congrArg₂ (· ++ ·) ?_ ?_
  · cases c.selector <;> rfl
  · cases c.backend with
    | direct => exact clearEvents_eq_clearTrace
    | serial m => rw [resetBackendEvents, shiftEvents_eq_shiftTrace]; rfl

/-! ## The levels and the display after reset -/

/-- Every line is low after reset, owned or not (10_state.md R35). -/
theorem lineLevel_low (c : Config) (l : Line) : lineLevel (Lines.low c) l = false := by
  have hrow : ∀ n d : Nat, (List.replicate n false)[d]?.getD false = false := by
    intro n d
    rw [List.getElem?_replicate]; split <;> rfl
  unfold Lines.low
  cases l with
  | setL k | clrL k => simp [lineLevel]
  | serData | serClk | serLatch | enable => rfl
  | en d => cases c.selector with
    | oneHot => exact hrow c.digits d
    | binary k => rfl
  | addr j => cases c.selector with
    | oneHot => rfl
    | binary k => exact hrow k j

theorem slotAt_resetOf (c : Config) (d : Nat) : slotAt (State.resetOf c) d = none := by
  unfold slotAt State.resetOf
  rw [List.getElem?_replicate]; split <;> rfl

theorem plantAt_resetOf (c : Config) (d : Nat) (k : Seg) : plantAt (State.resetOf c) d k = .unknown := by
  unfold plantAt State.resetOf
  by_cases hd : d < c.digits <;> simp [hd]

/-- Every coil is released after reset (60_exceptions.md R255). -/
theorem released_resetOf (c : Config) : released (State.resetOf c) := by
  intro k
  unfold coilDrive State.resetOf Lines.low
  cases c.backend <;> simp

/-- Settles O37: the fields of the reset state are read off, the levels and the trace by the lemmas above. -/
theorem resetValues : Obligations.ResetValues := by
  intro c
  refine ⟨List.length_replicate, List.length_replicate, fun d _ => slotAt_resetOf c d, fun hs => ?_, fun k hs => ?_,
    fun l _ => lineLevel_low c l, fun _ _ => ⟨rfl, rfl⟩, fun d k _ => plantAt_resetOf c d k,
    resetEvents_eq_resetTrace c⟩
  · simp [State.resetOf, Lines.low, hs]
  · simp [State.resetOf, Lines.low, hs]

/-- Settles O38: an absent line is as low as any other, and the rows of the other selector are empty. -/
theorem absentUnitsAtReset : Obligations.AbsentUnitsAtReset := by
  intro c
  refine ⟨fun l _ => lineLevel_low c l, fun _ => rfl, fun hs => ?_, fun k hs => ?_⟩
  · simp [State.resetOf, Lines.low, hs]
  · simp [State.resetOf, Lines.low, hs]

theorem unownedLow_resetOf (c : Config) : unownedLow (State.resetOf c) := by
  unfold unownedLow State.resetOf Lines.low
  cases c.backend <;> cases c.selector <;> simp

/-- The invariant holds after reset: every coil is released, so no pair is driven both ways, and the rest is low. -/
theorem BlockInv_resetOf {c : Config} (h : accepted c = true) : BlockInv (State.resetOf c) := by
  have hcoils : coilsSafe (State.resetOf c) := fun k => by simp [released_resetOf c k]
  exact ⟨h, List.length_replicate, List.length_replicate, rfl, rfl, rfl, rfl, hcoils, unownedLow_resetOf c⟩

/-- Settles O40: the standard configuration is an accepted one. -/
theorem invAtReset : Obligations.InvAtReset :=
  ⟨fun _ => BlockInv_resetOf, BlockInv_resetOf (by decide)⟩

end Sys2Proof.Machine
end

