-- ==== Sys2Proof/Proofs/Encoding.lean ====
section
/-! The decoder and the encoder (spec/30_encoding.md): the fields of a word as numbers, which words are legal and what
they decode to, and that both directions agree: O2, O3, O4, O5. -/

namespace Sys2Proof.Machine

open Sys2Proof.Spec Sys2Proof.Laws

/-! ## The fields of a word (30_encoding.md R70) -/

@[simp] theorem opField_toNat (w : Word) : (opField w).toNat = op w := by
  simp only [opField, op, BitVec.extractLsb'_toNat, Nat.shiftRight_eq_div_pow]
  omega

@[simp] theorem digitField_toNat (w : Word) : (digitField w).toNat = dig w := by
  simp only [digitField, dig, BitVec.extractLsb'_toNat, Nat.shiftRight_eq_div_pow]

@[simp] theorem rsvField_toNat (w : Word) : (rsvField w).toNat = rsv w := by
  simp only [rsvField, rsv, BitVec.extractLsb'_toNat, Nat.shiftRight_eq_div_pow]

@[simp] theorem opndField_toNat (w : Word) : (opndField w).toNat = opnd w := by
  simp only [opndField, opnd, BitVec.extractLsb'_toNat, Nat.shiftRight_zero]

@[simp] theorem digitField_eq_zero_iff (w : Word) : digitField w = 0#8 ↔ dig w = 0 := by
  rw [← digitField_toNat, BitVec.toNat_eq, BitVec.toNat_ofNat, Nat.zero_mod]

@[simp] theorem rsvField_eq_zero_iff (w : Word) : rsvField w = 0#4 ↔ rsv w = 0 := by
  rw [← rsvField_toNat, BitVec.toNat_eq, BitVec.toNat_ofNat, Nat.zero_mod]

@[simp] theorem opndField_eq_zero_iff (w : Word) : opndField w = 0#16 ↔ opnd w = 0 := by
  rw [← opndField_toNat, BitVec.toNat_eq, BitVec.toNat_ofNat, Nat.zero_mod]

theorem dig_lt (w : Word) : dig w < 256 := Nat.mod_lt _ (by decide)

theorem opnd_lt (w : Word) : opnd w < 65536 := Nat.mod_lt _ (by decide)

/-- The four fields are the whole word. -/
theorem word_ext {v w : Word} (hop : op v = op w) (hdig : dig v = dig w) (hrsv : rsv v = rsv w)
    (hopnd : opnd v = opnd w) : v = w := by
  apply BitVec.eq_of_toNat_eq
  unfold op at hop; unfold dig at hdig; unfold rsv at hrsv; unfold opnd at hopnd
  omega

/-! ## The fields of a packed word -/

@[simp] theorem op_packWord (o : BitVec 4) (d : Nat) (x : BitVec 16) : op (packWord o d x) = o.toNat := by
  rw [← opField_toNat, opField_packWord]

@[simp] theorem dig_packWord (o : BitVec 4) (d : Nat) (x : BitVec 16) : dig (packWord o d x) = d % 256 := by
  rw [← digitField_toNat, digitField_packWord, BitVec.toNat_ofNat]

@[simp] theorem rsv_packWord (o : BitVec 4) (d : Nat) (x : BitVec 16) : rsv (packWord o d x) = 0 :=
  (rsvField_eq_zero_iff _).1 (rsvField_packWord o d x)

@[simp] theorem opnd_packWord (o : BitVec 4) (d : Nat) (x : BitVec 16) : opnd (packWord o d x) = x.toNat := by
  rw [opnd, packWord, BitVec.toNat_append, ← Nat.shiftLeft_add_eq_or_of_lt x.isLt, Nat.shiftLeft_eq]
  omega

/-- A word with `RSV` 0 is packed from its other fields. -/
theorem packWord_eq_of_fields {w : Word} {o : BitVec 4} {x : BitVec 16} {d : Nat} (hrsv : rsv w = 0)
    (hop : op w = o.toNat) (hdig : dig w = d) (hopnd : opnd w = x.toNat) : packWord o d x = w := by
  have hd := dig_lt w
  apply word_ext
  · rw [op_packWord, hop]
  · rw [dig_packWord, hdig]; omega
  · rw [rsv_packWord, hrsv]
  · rw [opnd_packWord, hopnd]

/-! ## Value codes (30_encoding.md R74) -/

/-- The decoder's reading of a value code, by arithmetic. -/
theorem decodeValue_eq (x : BitVec 16) :
    decodeValue x = if badBlank x.toNat then none else some (valueAt x.toNat) := by
  have hx := x.isLt
  have hbit : x.getLsbD 15 = decide (2 ^ 15 ≤ x.toNat) := BitVec.msb_eq_decide x
  have hnum : (x.extractLsb' 0 15).toNat = x.toNat % 2 ^ 15 := by simp
  have hzero : x.extractLsb' 0 15 = 0#15 ↔ x.toNat % 2 ^ 15 = 0 := by
    rw [BitVec.toNat_eq, hnum, BitVec.toNat_ofNat, Nat.zero_mod]
  simp only [decodeValue, valueAt, hbit, hzero, hnum, decide_eq_true_eq]
  by_cases hblank : 2 ^ 15 ≤ x.toNat
  · have hbad : x.toNat % 2 ^ 15 = 0 ↔ ¬ badBlank x.toNat := by unfold badBlank; omega
    simp only [hblank, hbad, if_true, ite_not]
  · have hgood : ¬ badBlank x.toNat := by unfold badBlank; omega
    simp only [hblank, hgood, if_false, Nat.mod_eq_of_lt (Nat.not_le.1 hblank)]

theorem withValue_eq (w : Word) (k : Value → Instr) : withValue (opndField w) k =
    if badBlank (opnd w) then .illegal .blank else .command (k (valueAt (opnd w))) := by
  rw [withValue, decodeValue_eq, opndField_toNat]
  split_ifs <;> rfl

theorem valueAt_wellFormed (x : Nat) : (valueAt x).wellFormed = true := by
  unfold valueAt
  split_ifs with h
  · rfl
  · simp only [Value.wellFormed, decide_eq_true_eq]; omega

theorem valueCode_number_toNat {n : Nat} (h : n < 2 ^ 15) : (valueCode (.number n)).toNat = n :=
  Nat.mod_eq_of_lt (by omega)

theorem not_badBlank_valueCode {v : Value} (h : v.wellFormed = true) : ¬ badBlank (valueCode v).toNat := by
  cases v with
  | blank => decide
  | number n =>
    have hn : n < 2 ^ 15 := of_decide_eq_true h
    rw [valueCode_number_toNat hn]; exact Nat.not_lt.2 hn.le

theorem valueAt_valueCode {v : Value} (h : v.wellFormed = true) : valueAt (valueCode v).toNat = v := by
  cases v with
  | blank => decide
  | number n =>
    have hn : n < 2 ^ 15 := of_decide_eq_true h
    rw [valueCode_number_toNat hn]; exact if_neg (Nat.not_le.2 hn)

theorem valueCode_valueAt {w : Word} (h : ¬ badBlank (opnd w)) : (valueCode (valueAt (opnd w))).toNat = opnd w := by
  unfold badBlank at h
  unfold valueAt
  split_ifs with hb
  · exact Nat.le_antisymm hb (Nat.not_lt.1 h)
  · exact Nat.mod_eq_of_lt (opnd_lt w)

/-! ## The operand of `UPDATE` (30_encoding.md R75) -/

/-- The upper bits of the operand, which must be 0. -/
theorem opndField_high_eq_zero_iff (w : Word) : (opndField w).extractLsb' 7 9 = 0#9 ↔ opnd w < 2 ^ 7 := by
  have hx := opnd_lt w
  rw [BitVec.toNat_eq, BitVec.extractLsb'_toNat, opndField_toNat, Nat.shiftRight_eq_div_pow, BitVec.toNat_ofNat]
  omega

/-- The pattern in the lower bits. -/
theorem opndField_low (w : Word) : (opndField w).extractLsb' 0 7 = BitVec.ofNat 7 (opnd w) := by
  apply BitVec.eq_of_toNat_eq
  rw [BitVec.extractLsb'_toNat, opndField_toNat, Nat.shiftRight_zero, BitVec.toNat_ofNat]

theorem pattern_lt (p : Pattern) : p.toNat < 65536 := p.isLt.trans (by decide)

/-! ## What each operation decodes to (30_encoding.md R71 to R79) -/

section
variable {w : Word}

theorem decode_of_rsv (h : rsv w ≠ 0) : decode w = .illegal .reserved :=
  if_pos (mt (rsvField_eq_zero_iff w).1 h)

variable (hr : rsv w = 0)
include hr

theorem decode_opEncode (h : op w = 1) : decode w =
    if dig w ≠ 0 then .illegal .digit
    else if badBlank (opnd w) then .illegal .blank else .command (.encode (valueAt (opnd w))) := by
  simp [decode, hr, h, withValue_eq]

theorem decode_opUpdate (h : op w = 2) : decode w =
    if 2 ^ 7 ≤ opnd w then .illegal .operand else .command (.update (dig w) (BitVec.ofNat 7 (opnd w))) := by
  simp [decode, hr, h, opndField_high_eq_zero_iff, opndField_low]

theorem decode_opDisplayNumber (h : op w = 3) : decode w =
    if badBlank (opnd w) then .illegal .blank else .command (.displayNumber (dig w) (valueAt (opnd w))) := by
  simp [decode, hr, h, withValue_eq]

theorem decode_opClearPins (h : op w = 4) : decode w =
    if dig w ≠ 0 then .illegal .digit else if opnd w ≠ 0 then .illegal .operand else .command .clearPins := by
  simp [decode, hr, h]

theorem decode_opStrobe (h : op w = 5) : decode w = .command (.strobe (dig w) (opnd w)) := by
  simp [decode, hr, h]

theorem decode_opRender (h : op w = 6) : decode w =
    if dig w ≠ 0 then .illegal .digit else .command (.render (opnd w)) := by
  simp [decode, hr, h]

theorem decode_opOther (h : op w = 0 ∨ 7 ≤ op w) : decode w = .illegal .opcode := by
  simp only [decode, ne_eq, rsvField_eq_zero_iff, hr, opField_toNat, not_true, if_false]
  split
  case h_7 => rfl
  all_goals omega

end

/-! ## The two verdicts (30_encoding.md R79, R85) -/

/-- The legal words, operation by operation (30_encoding.md R78). -/
theorem not_illegalWord_iff (w : Word) : ¬ IllegalWord w ↔ rsv w = 0 ∧
    ((op w = 1 ∧ dig w = 0 ∧ ¬ badBlank (opnd w)) ∨ (op w = 2 ∧ opnd w < 2 ^ 7) ∨
      (op w = 3 ∧ ¬ badBlank (opnd w)) ∨ (op w = 4 ∧ dig w = 0 ∧ opnd w = 0) ∨ op w = 5 ∨
      (op w = 6 ∧ dig w = 0)) := by
  unfold IllegalWord badBlank
  omega

theorem decode_of_illegal {w : Word} (h : IllegalWord w) : ∃ why, decode w = .illegal why := by
  by_cases hr : rsv w = 0
  swap
  · exact ⟨_, decode_of_rsv hr⟩
  rcases h with hop | hop | h | ⟨hop, h⟩ | ⟨hop, h⟩ | ⟨hop, h⟩ | ⟨hop, h⟩ | ⟨hop, h⟩
  · exact ⟨_, decode_opOther hr (.inl hop)⟩
  · exact ⟨_, decode_opOther hr (.inr hop)⟩
  · exact absurd hr h
  · rw [decode_opEncode hr hop]
    by_cases hd : dig w ≠ 0
    · exact ⟨_, if_pos hd⟩
    · exact ⟨_, (if_neg hd).trans (if_pos (h.resolve_left hd))⟩
  · exact ⟨_, (decode_opUpdate hr hop).trans (if_pos h)⟩
  · exact ⟨_, (decode_opDisplayNumber hr hop).trans (if_pos h)⟩
  · rw [decode_opClearPins hr hop]
    by_cases hd : dig w ≠ 0
    · exact ⟨_, if_pos hd⟩
    · exact ⟨_, (if_neg hd).trans (if_pos (h.resolve_left hd))⟩
  · exact ⟨_, (decode_opRender hr hop).trans (if_pos h)⟩

theorem decode_of_legal {w : Word} (h : ¬ IllegalWord w) : decode w = .command (commandAt w) := by
  obtain ⟨hr, ⟨hop, hd, hb⟩ | ⟨hop, hx⟩ | ⟨hop, hb⟩ | ⟨hop, hd, hx⟩ | hop | ⟨hop, hd⟩⟩ := (not_illegalWord_iff w).1 h
  · rw [decode_opEncode hr hop, if_neg (not_not.2 hd), if_neg hb]; simp [commandAt, hop]
  · rw [decode_opUpdate hr hop, if_neg (Nat.not_le.2 hx)]; simp [commandAt, hop]
  · rw [decode_opDisplayNumber hr hop, if_neg hb]; simp [commandAt, hop]
  · rw [decode_opClearPins hr hop, if_neg (not_not.2 hd), if_neg (not_not.2 hx)]; simp [commandAt, hop]
  · rw [decode_opStrobe hr hop]; simp [commandAt, hop]
  · rw [decode_opRender hr hop, if_neg (not_not.2 hd)]; simp [commandAt, hop]

theorem decode_eq_command_iff (w : Word) (i : Instr) :
    decode w = .command i ↔ ¬ IllegalWord w ∧ commandAt w = i := by
  by_cases h : IllegalWord w
  · obtain ⟨why, hw⟩ := decode_of_illegal h
    simp [hw, h]
  · simp [decode_of_legal h, h]

theorem illegalWord_iff (w : Word) : IllegalWord w ↔ ∃ why, decode w = .illegal why := by
  refine ⟨decode_of_illegal, fun ⟨why, hw⟩ => ?_⟩
  by_contra h
  simp [decode_of_legal h] at hw

/-- Settles O4: the two verdicts, which no state enters. -/
theorem decoderIsTotal : Obligations.DecoderIsTotal :=
  fun _ => ⟨decode_of_illegal, decode_of_legal⟩

/-! ## Decoding and encoding agree (30_encoding.md R84) -/

/-- The word of a well-formed command is legal: each operation leaves its must-be-zero fields 0. -/
theorem encode_legal {i : Instr} (h : i.wellFormed = true) : ¬ IllegalWord (encode i) := by
  rw [not_illegalWord_iff]
  cases i with
  | encode v => simpa [encode] using not_badBlank_valueCode h
  | update d p => simpa [encode, Nat.mod_eq_of_lt (pattern_lt p)] using p.isLt
  | displayNumber d v =>
    obtain ⟨-, hv⟩ : _ ∧ v.wellFormed = true := by simpa [Instr.wellFormed] using h
    simpa [encode] using not_badBlank_valueCode hv
  | clearPins => simp [encode]
  | strobe d ms => simp [encode]
  | render n => simp [encode]

/-- Every operand of a well-formed command fits its field, so the fields of its word give it back. -/
theorem commandAt_encode {i : Instr} (h : i.wellFormed = true) : commandAt (encode i) = i := by
  cases i with
  | encode v => simp [commandAt, encode, valueAt_valueCode h]
  | update d p =>
    have hd : d < 256 := of_decide_eq_true h
    simp [commandAt, encode, Nat.mod_eq_of_lt hd, Nat.mod_eq_of_lt (pattern_lt p)]
  | displayNumber d v =>
    obtain ⟨hd, hv⟩ : d < 256 ∧ v.wellFormed = true := by simpa [Instr.wellFormed] using h
    simp [commandAt, encode, Nat.mod_eq_of_lt hd, valueAt_valueCode hv]
  | clearPins => simp [commandAt, encode]
  | strobe d ms =>
    obtain ⟨hd, hms⟩ : d < 256 ∧ ms < 65536 := by simpa [Instr.wellFormed] using h
    simp [commandAt, encode, Nat.mod_eq_of_lt hd, Nat.mod_eq_of_lt hms]
  | render n =>
    have hn : n < 65536 := of_decide_eq_true h
    simp [commandAt, encode, Nat.mod_eq_of_lt hn]

theorem commandAt_wellFormed (w : Word) : (commandAt w).wellFormed = true := by
  have hd := dig_lt w
  have hx := opnd_lt w
  unfold commandAt
  split_ifs <;> simp [Instr.wellFormed, valueAt_wellFormed, hd, hx]

/-- A legal word is packed from its fields: those its operation does not read are 0. -/
theorem encode_commandAt {w : Word} (h : ¬ IllegalWord w) : encode (commandAt w) = w := by
  obtain ⟨hr, ⟨hop, hd, hb⟩ | ⟨hop, hx⟩ | ⟨hop, hb⟩ | ⟨hop, hd, hx⟩ | hop | ⟨hop, hd⟩⟩ := (not_illegalWord_iff w).1 h
  · simpa [commandAt, hop, encode] using packWord_eq_of_fields (o := 1#4) hr hop hd (valueCode_valueAt hb).symm
  · have hp : opnd w = ((BitVec.ofNat 7 (opnd w)).setWidth 16).toNat := by simp; omega
    simpa [commandAt, hop, encode] using packWord_eq_of_fields (o := 2#4) hr hop rfl hp
  · simpa [commandAt, hop, encode] using packWord_eq_of_fields (o := 3#4) hr hop rfl (valueCode_valueAt hb).symm
  · simpa [commandAt, hop, encode] using packWord_eq_of_fields (o := 4#4) (x := 0#16) hr hop hd hx
  · have hm : opnd w = (BitVec.ofNat 16 (opnd w)).toNat := (Nat.mod_eq_of_lt (opnd_lt w)).symm
    simpa [commandAt, hop, encode] using packWord_eq_of_fields (o := 5#4) hr hop rfl hm
  · have hm : opnd w = (BitVec.ofNat 16 (opnd w)).toNat := (Nat.mod_eq_of_lt (opnd_lt w)).symm
    simpa [commandAt, hop, encode] using packWord_eq_of_fields (o := 6#4) hr hop hd hm

/-- Settles O2: the word is legal, and its fields give the command back. -/
theorem decodeEncode : Obligations.DecodeEncode := by
  intro i h
  rw [decode_of_legal (encode_legal h), commandAt_encode h]

/-- Settles O3: a word that decodes to a command is legal, and its fields make up the whole word. -/
theorem encodeDecode : Obligations.EncodeDecode := by
  intro w i h
  obtain ⟨hlegal, rfl⟩ := (decode_eq_command_iff w i).1 h
  exact ⟨commandAt_wellFormed w, encode_commandAt hlegal⟩

/-- Settles O5: each word is evaluated. -/
theorem sampleWords : Obligations.SampleWords := by
  unfold Obligations.SampleWords
  decide

end Sys2Proof.Machine
end

