-- ==== Sys2Proof/Proofs/Responses.lean ====
section
/-! What a command word draws as its response: O8, O9. -/

namespace Sys2Proof.Machine

open Sys2Proof.Spec

/-! ## The response word (30_encoding.md R80, R81) -/

/-- The layout of a response, by arithmetic. -/
theorem responseWord_eq_reply (e : Err) (c : Bool) (x : Mask) :
    responseWord e c x = reply (errCode e).toNat c x := by
  apply BitVec.eq_of_toNat_eq
  have hlt := (responseWord e c x).isLt
  rw [responseWord_toNat] at hlt ⊢
  rw [reply, BitVec.toNat_ofNat, Nat.mod_eq_of_lt hlt]

theorem errCode_mem (e : Err) : (errCode e).toNat = 0x0 ∨ (errCode e).toNat = 0x1 ∨ (errCode e).toNat = 0x2 ∨
    (errCode e).toNat = 0xF := by
  cases e <;> decide

theorem eq_ok_of_errCode {e : Err} (h : (errCode e).toNat = 0) : e = .ok := by
  cases e with
  | ok => rfl
  | outOfRange | doesNotExist | illegal => exact absurd h (by decide)

/-! ## Every word is answered -/

/-- An illegal word is taken and answered, and nothing else changes. -/
theorem step_of_illegal {s : State} {w : Word} {rest : List Word} (hc : s.commands = w :: rest) (h : IllegalWord w) :
    step s = .next (raise .illegal (takeCommand rest s)) := by
  obtain ⟨why, hd⟩ := decode_of_illegal h
  simp only [step, hc, hd]
  rfl

/-- A command answers one response to what the units left, and one that ends in an error carries nothing in it
(30_encoding.md R82, 60_exceptions.md R244). -/
theorem exec_answers (i : Instr) (s : State) : ∃ e c x u, exec i s = .next (respond e c x u) ∧ Extends s u ∧
    (e ≠ .ok → c = false ∧ x = 0#16) := by
  by_cases h : errorOf s.cfg i = 0#4
  · exact ⟨.ok, _, _, _, exec_of_ok h, (keptBy_extends i).of_commandResult h, fun he => absurd rfl he⟩
  · obtain ⟨e, -, hx⟩ := exec_of_error h
    exact ⟨e, false, 0#16, s, hx s rfl, Extends_refl s, fun _ => ⟨rfl, rfl⟩⟩

/-- A word at the head of the port is taken and answered with one response, legal or not. -/
theorem step_answers {s : State} {w : Word} {rest : List Word} (hc : s.commands = w :: rest) :
    ∃ e c x u, step s = .next (respond e c x u) ∧ Extends (takeCommand rest s) u ∧
      (e ≠ .ok → c = false ∧ x = 0#16) := by
  by_cases h : IllegalWord w
  · exact ⟨.illegal, false, 0#16, _, step_of_illegal hc h, Extends_refl _, fun _ => ⟨rfl, rfl⟩⟩
  · have hs : step s = exec (commandAt w) (takeCommand rest s) := stepRunsCommand s w rest _ hc (decode_of_legal h)
    rw [hs]
    exact exec_answers _ _

/-- Settles O8: the decoder's verdict, and the answer an illegal word draws. -/
theorem illegalWordAnswered : Obligations.IllegalWordAnswered := by
  intro w
  refine ⟨illegalWord_iff w, fun s rest hc h => ?_⟩
  rw [step_of_illegal hc h, raise_eq, responseWord_eq_reply]
  rfl

/-- Settles O9: the one response a word draws has the layout of R80. -/
theorem oneResponsePerCommand : Obligations.OneResponsePerCommand := by
  intro s w rest hc
  obtain ⟨e, c, x, u, hs, hu, herr⟩ := step_answers hc
  refine ⟨_, (errCode e).toNat, c, x, hs, hu.commands, ?_, errCode_mem e, fun he => herr ?_⟩
  · rw [respond_responses, hu.responses, responseWord_eq_reply, takeCommand_responses]
  · rintro rfl
    exact he rfl

end Sys2Proof.Machine
end


-- ==== Sys2Proof/Proofs/EventSafety.lean ====
section
/-! Every step keeps the invariant of the block, and every point inside it is safe: no coil pair is driven both ways
and at most one position is enabled (spec/40_segment.md R103, 42_serial_expander.md R160, 43_selector.md R185): O41,
O42. -/

namespace Sys2Proof.Machine

open Sys2Proof.Spec

/-! ## At every point of a sequence of events -/

/-- `P` holds at every point of the events `es` performed from `s`, the first and the last among them. -/
def Throughout (P : State → Prop) (es : List Event) (s : State) : Prop :=
  ∀ pre, pre <+: es → P (perform pre s)

section
variable {P : State → Prop}

@[simp] theorem throughout_nil (s : State) : Throughout P [] s ↔ P s := by
  simp [Throughout]

@[simp] theorem throughout_cons (e : Event) (es : List Event) (s : State) :
    Throughout P (e :: es) s ↔ P s ∧ Throughout P es (emit s e) := by
  constructor
  · exact fun h => ⟨h [] List.nil_prefix, fun pre hpre => h (e :: pre) ((List.prefix_cons_inj e).2 hpre)⟩
  · rintro ⟨hs, h⟩ pre hpre
    rcases List.prefix_cons_iff.1 hpre with rfl | ⟨pre', rfl, hpre'⟩
    · exact hs
    · exact h pre' hpre'

/-- The last point of a sequence is one of its points. -/
theorem Throughout.last {es : List Event} {s : State} (h : Throughout P es s) : P (perform es s) :=
  h es List.prefix_rfl

theorem Throughout.append {es fs : List Event} {s : State} (h : Throughout P es s)
    (k : Throughout P fs (perform es s)) : Throughout P (es ++ fs) s := by
  induction es generalizing s with
  | nil => exact k
  | cons e es ih =>
    obtain ⟨hs, hes⟩ := (throughout_cons e es s).1 h
    rw [List.cons_append, throughout_cons]
    exact ⟨hs, ih hes k⟩

/-- What holds throughout each block of events holds throughout the blocks one after the other. -/
theorem Throughout.flatMap {α : Type} {f : α → List Event} {l : List α} {s : State} (hs : P s)
    (h : ∀ a ∈ l, ∀ t, t.cfg = s.cfg → P t → Throughout P (f a) t) : Throughout P (l.flatMap f) s := by
  induction l generalizing s with
  | nil => simpa using hs
  | cons a l ih =>
    obtain ⟨ha, hl⟩ := List.forall_mem_cons.1 h
    have hfirst := ha s rfl hs
    exact hfirst.append (ih hfirst.last fun b hb t ht => hl b hb t (ht.trans (perform_cfg _ s)))

/-- What every event of a sequence keeps holds at every point of it. -/
theorem Throughout.of_emit {es : List Event} {s : State} (hs : P s)
    (h : ∀ e ∈ es, ∀ t, t.cfg = s.cfg → P t → P (emit t e)) : Throughout P es s := by
  rw [← List.flatMap_singleton' es]
  exact .flatMap hs fun e he t hc ht => by simpa using ⟨ht, h e he t hc ht⟩

theorem Throughout.mono {Q : State → Prop} {es : List Event} {s : State} (h : Throughout P es s)
    (hPQ : ∀ t, P t → Q t) : Throughout Q es s :=
  fun pre hpre => hPQ _ (h pre hpre)

end

/-! ## The coils -/

/-- A line that no coil hangs on leaves every coil drive as it was (45_display_plant.md R221). -/
theorem coilDrive_emit_of_selectorLine {l : Line} (hl : isSelectorLine l = true) (b : Bool) (s : State) (k : Seg) :
    coilDrive (emit s (.write l b)) k = coilDrive s k := by
  cases l with
  | en d | addr j | enable => rfl
  | setL j | clrL j | serData | serClk | serLatch => cases hl

/-- With the serial back end only the latch line moves the coil drive (42_serial_expander.md R156). -/
theorem coilDrive_emit_of_serial {s : State} {m : SrMap} (hb : s.cfg.backend = .serial m) {l : Line}
    (hl : l ≠ .serLatch) (b : Bool) (k : Seg) : coilDrive (emit s (.write l b)) k = coilDrive s k := by
  have hq : (emit s (.write l b)).sr.q = s.sr.q := by
    cases l with
    | serClk => simp only [emit, shiftRegAt]; split <;> rfl
    | serLatch => exact absurd rfl hl
    | setL j | clrL j | serData | en d | addr j | enable => rfl
  unfold coilDrive
  rw [emit_cfg, hb, hq]

/-- With the serial back end a falling latch moves no coil drive (42_serial_expander.md R156). -/
theorem coilDrive_emit_latchLow {s : State} {m : SrMap} (hb : s.cfg.backend = .serial m) (k : Seg) :
    coilDrive (emit s (.write .serLatch false)) k = coilDrive s k := by
  unfold coilDrive
  rw [emit_cfg, hb]
  rfl

/-- A serialisation moves the coil drive at the rise of the latch only: before it the coils are as they were, after
it as they are left (42_serial_expander.md R160). -/
theorem throughout_coilsSafe_shiftEvents {s : State} {m : SrMap} (hb : s.cfg.backend = .serial m) (w : Mask)
    (hs : coilsSafe s) (hend : coilsSafe (perform (shiftEvents w) s)) : Throughout coilsSafe (shiftEvents w) s := by
  have hclocks : Throughout coilsSafe (shiftOrder.flatMap fun i => clockEvents (w.getLsbD i)) s := by
    refine Throughout.of_emit hs fun e he t hc ht k => ?_
    obtain ⟨i, -, hi⟩ := List.mem_flatMap.1 he
    simp only [clockEvents, List.mem_cons, List.not_mem_nil, or_false] at hi
    have hbt : t.cfg.backend = .serial m := by rw [hc, hb]
    rcases hi with rfl | rfl | rfl <;> rw [coilDrive_emit_of_serial hbt (by decide)] <;> exact ht k
  rw [shiftEvents, perform_append] at hend
  refine hclocks.append ?_
  simp only [throughout_cons, throughout_nil]
  refine ⟨hclocks.last, fun k => ?_, hend⟩
  rw [← coilDrive_emit_latchLow (m := m) (by simpa using hb)]
  exact hend k

/-- With the direct back end the coils of a segment are its two lines (45_display_plant.md R221). -/
theorem coilDrive_direct {s : State} (hb : s.cfg.backend = .direct) (k : Seg) :
    coilDrive s k = (lineLevel s.lines (.setL k), lineLevel s.lines (.clrL k)) := by
  unfold coilDrive; rw [hb]; rfl

/-- With the direct back end the coils are safe when one line of each segment is low (40_segment.md R103). -/
theorem coilsSafe_direct_iff {s : State} (hb : s.cfg.backend = .direct) :
    coilsSafe s ↔ ∀ k : Seg, lineLevel s.lines (.setL k) = false ∨ lineLevel s.lines (.clrL k) = false := by
  refine forall_congr' fun k => ?_
  rw [coilDrive_direct hb, Ne, Prod.mk.injEq, not_and_or, Bool.not_eq_true, Bool.not_eq_true]

/-- A write of a line of segment `k` leaves the other segments' coils as they were (45_display_plant.md R221). -/
theorem coilsSafe_emit_segmentLine {s : State} (hb : s.cfg.backend = .direct) {l : Line} {k : Seg} {b : Bool}
    (hl : l = .setL k ∨ l = .clrL k) (hs : coilsSafe s)
    (hk : lineLevel (putLine s.lines l b) (.setL k) = false ∨ lineLevel (putLine s.lines l b) (.clrL k) = false) :
    coilsSafe (emit s (.write l b)) := by
  rw [coilsSafe_direct_iff hb] at hs
  rw [coilsSafe_direct_iff (by rwa [emit_cfg]), emit_write_lines]
  intro j
  by_cases hj : j = k
  · rwa [hj]
  · have hne : Line.setL j ≠ l ∧ Line.clrL j ≠ l := by rcases hl with rfl | rfl <;> simp [hj]
    rw [lineLevel_putLine_of_ne hne.1, lineLevel_putLine_of_ne hne.2]
    exact hs j

/-- Lowering one line of a segment before the other one moves keeps its coils safe (40_segment.md R101, R103). -/
theorem throughout_coilsSafe_pair {s : State} (hb : s.cfg.backend = .direct) {l l' : Line} {k : Seg}
    (h : l = .setL k ∧ l' = .clrL k ∨ l = .clrL k ∧ l' = .setL k) (b : Bool) (hs : coilsSafe s) :
    Throughout coilsSafe [.write l false, .write l' b] s := by
  have hself : lineLevel (putLine s.lines l false) l = false :=
    lineLevel_putLine_self (by rcases h with ⟨rfl, -⟩ | ⟨rfl, -⟩ <;> trivial) false
  have hother : lineLevel (putLine (emit s (.write l false)).lines l' b) l = false := by
    rw [lineLevel_putLine_of_ne (by rcases h with ⟨rfl, rfl⟩ | ⟨rfl, rfl⟩ <;> simp)]
    exact hself
  have hfirst : coilsSafe (emit s (.write l false)) :=
    coilsSafe_emit_segmentLine hb (h.imp And.left And.left) hs
      (by rcases h with ⟨rfl, -⟩ | ⟨rfl, -⟩ <;> simp [hself])
  have hsecond : coilsSafe (emit (emit s (.write l false)) (.write l' b)) :=
    coilsSafe_emit_segmentLine (by rwa [emit_cfg]) (h.symm.imp And.right And.right) hfirst
      (by rcases h with ⟨rfl, -⟩ | ⟨rfl, -⟩ <;> simp only [hother, true_or, or_true])
  simp only [throughout_cons, throughout_nil]
  exact ⟨hs, hfirst, hsecond⟩

/-- The writes of an update on the direct back end lower a segment's line before they raise its other one
(40_segment.md R101, R102). -/
theorem throughout_coilsSafe_updateEvents {s : State} (hb : s.cfg.backend = .direct) (diff p : Pattern)
    (hs : coilsSafe s) : Throughout coilsSafe (updateEvents diff p) s := by
  refine Throughout.flatMap hs fun k _ t hc ht => ?_
  have hbt : t.cfg.backend = .direct := by rw [hc, hb]
  by_cases hd : diff[k] = true
  · rw [if_pos hd, driveEvents]
    split
    · exact throughout_coilsSafe_pair hbt (.inr ⟨rfl, rfl⟩) true ht
    · exact throughout_coilsSafe_pair hbt (.inl ⟨rfl, rfl⟩) true ht
  · rw [if_neg hd]
    exact throughout_coilsSafe_pair hbt (.inl ⟨rfl, rfl⟩) false ht

/-! ## The enables -/

/-- At most one position is enabled (43_selector.md R185). -/
def atMostOneEnabled (s : State) : Prop :=
  ∀ d e : Nat, enabledAt s d = true → enabledAt s e = true → d = e

theorem atMostOneEnabled_of_only {s : State} (d : Nat) (h : ∀ e, enabledAt s e = true → e = d) :
    atMostOneEnabled s :=
  fun e f he hf => (h e he).trans (h f hf).symm

/-- A line of the back end enables nothing (43_selector.md R180). -/
theorem enabledAt_emit_of_backendLine {l : Line} (hl : isSelectorLine l = false) (b : Bool) (s : State) (d : Nat) :
    enabledAt (emit s (.write l b)) d = enabledAt s d := by
  cases l with
  | setL j | clrL j | serData | serClk | serLatch => rfl
  | en d | addr j | enable => cases hl

theorem enabledAt_oneHot {s : State} (hs : s.cfg.selector = .oneHot) (d : Nat) :
    enabledAt s d = lineLevel s.lines (.en d) := by
  unfold enabledAt; rw [hs]

/-- The address lines name one position, so with the binary selector no two are ever enabled (43_selector.md R182). -/
theorem atMostOneEnabled_of_binary {s : State} {k : Nat} (hs : s.cfg.selector = .binary k) : atMostOneEnabled s := by
  have hbits : ∀ d, enabledAt s d = true → d < 2 ^ k ∧ ∀ j < k, lineLevel s.lines (.addr j) = d.testBit j := by
    intro d hd
    unfold enabledAt at hd
    simp only [hs, Bool.and_eq_true, decide_eq_true_eq, List.all_eq_true, List.mem_range, beq_iff_eq] at hd
    obtain ⟨⟨-, hlt⟩, haddr⟩ := hd
    exact ⟨hlt, haddr⟩
  intro d e hd he
  obtain ⟨hdlt, hdbit⟩ := hbits d hd
  obtain ⟨helt, hebit⟩ := hbits e he
  refine Nat.eq_of_testBit_eq fun j => ?_
  by_cases hj : j < k
  · rw [← hdbit j hj, hebit j hj]
  · have hpow : 2 ^ k ≤ 2 ^ j := Nat.pow_le_pow_right two_pos (by omega)
    rw [Nat.testBit_lt_two_pow (hdlt.trans_le hpow), Nat.testBit_lt_two_pow (helt.trans_le hpow)]

/-- Between commands nothing is enabled (43_selector.md R185). -/
theorem enabledAt_of_inv {s : State} (h : BlockInv s) (d : Nat) : enabledAt s d = false := by
  obtain ⟨-, -, -, hen, henable, -⟩ := h
  unfold enabledAt
  cases hs : s.cfg.selector with
  | oneHot =>
    simp only [hs] at hen
    simp only [lineLevel, hen, List.getElem?_replicate]
    split <;> rfl
  | binary k => simp [henable]

/-- A strobe enables no position but its own (43_selector.md R181, R182). -/
theorem throughout_atMostOneEnabled_strobeEvents {s : State} (h : BlockInv s) (d ms : Nat) :
    Throughout atMostOneEnabled (strobeEvents s.cfg d ms) s := by
  unfold strobeEvents
  cases hs : s.cfg.selector with
  | oneHot =>
    refine Throughout.mono (P := fun t => ∀ e, enabledAt t e = true → e = d)
      (Throughout.of_emit (fun e he => ?_) fun ev hev t hc ht e he => ?_) fun t => atMostOneEnabled_of_only d
    · simp [enabledAt_of_inv h] at he
    · have hwrite : ∀ b, enabledAt (emit t (.write (.en d) b)) e = true → e = d := by
        intro b hb
        by_contra hne
        rw [enabledAt_oneHot (by rw [emit_cfg, hc, hs]), emit_write_lines,
          lineLevel_putLine_of_ne (by simpa using hne), ← enabledAt_oneHot (by rw [hc, hs])] at hb
        exact hne (ht e hb)
      simp only [strobeOneHotEvents, List.mem_cons, List.not_mem_nil, or_false] at hev
      rcases hev with rfl | rfl | rfl
      · exact hwrite true he
      · exact ht e he
      · exact hwrite false he
  | binary k =>
    exact fun pre _ => atMostOneEnabled_of_binary (by rw [perform_cfg]; exact hs)

/-! ## The operations of the units -/

/-- A point of a command is safe: no coil pair is driven both ways and at most one position is enabled
(40_segment.md R103, 42_serial_expander.md R160, 43_selector.md R185). -/
def eventSafe (s : State) : Prop := coilsSafe s ∧ atMostOneEnabled s

/-- Safety reads the configuration, the lines and the shift register. -/
theorem eventSafe_congr {s t : State} (hc : t.cfg = s.cfg) (hl : (t.lines, t.sr) = (s.lines, s.sr)) :
    eventSafe t ↔ eventSafe s := by
  rw [Prod.mk.injEq] at hl
  unfold eventSafe coilsSafe atMostOneEnabled coilDrive enabledAt
  rw [hc, hl.1, hl.2]

theorem coilsSafe_of_inv {s : State} (h : BlockInv s) : coilsSafe s := by
  obtain ⟨-, -, -, -, -, -, -, hcoils, -⟩ := h
  exact hcoils

theorem eventSafe_of_inv {s : State} (h : BlockInv s) : eventSafe s :=
  ⟨coilsSafe_of_inv h, atMostOneEnabled_of_only 0 fun e he => by simp [enabledAt_of_inv h] at he⟩

theorem throughout_eventSafe_congr {s t : State} {es : List Event} (hc : t.cfg = s.cfg)
    (hl : (t.lines, t.sr) = (s.lines, s.sr)) (h : Throughout eventSafe es s) : Throughout eventSafe es t := by
  intro pre hpre
  refine (eventSafe_congr (by simp [hc]) ?_).2 (h pre hpre)
  rw [perform_levels, perform_levels, hl]

/-- The event sequences of the back end: an update's writes, or a serialisation (41_digit_controller.md R125, R128;
42_serial_expander.md R155). -/
def isBackendSequence (b : Backend) (es : List Event) : Prop :=
  match b with
  | .direct   => ∃ diff p, es = updateEvents diff p
  | .serial _ => ∃ w, es = shiftEvents w

theorem isBackendSequence_slotEvents (b : Backend) (old : Option Pattern) (p : Pattern) :
    isBackendSequence b (slotEvents b old p) := by
  cases b with
  | direct => exact ⟨_, _, rfl⟩
  | serial m => exact ⟨_, rfl⟩

/-- A sequence of the back end that leaves the coils safe is safe at every point of it. -/
theorem throughout_eventSafe_backend {s : State} (h : BlockInv s) {es : List Event}
    (hes : isBackendSequence s.cfg.backend es) (hend : coilsSafe (perform es s)) : Throughout eventSafe es s := by
  have hsafe := coilsSafe_of_inv h
  have hparts : Throughout coilsSafe es s ∧ ∀ e ∈ es, writesOnly (isBackendLine s.cfg) e := by
    cases hb : s.cfg.backend with
    | direct =>
      rw [hb] at hes
      obtain ⟨diff, p, rfl⟩ := hes
      exact ⟨throughout_coilsSafe_updateEvents hb diff p hsafe, updateEvents_writesOnly hb diff p⟩
    | serial m =>
      rw [hb] at hes
      obtain ⟨w, rfl⟩ := hes
      exact ⟨throughout_coilsSafe_shiftEvents hb w hsafe hend, shiftEvents_writesOnly hb w⟩
  obtain ⟨hcoils, hlines⟩ := hparts
  have hnone : Throughout (fun t => ∀ d, enabledAt t d = false) es s := by
    refine Throughout.of_emit (enabledAt_of_inv h) fun e he t _ ht d => ?_
    cases e with
    | wait ms => exact ht d
    | write l b =>
      obtain ⟨-, hl⟩ := hlines _ he
      rw [enabledAt_emit_of_backendLine hl]
      exact ht d
  exact fun pre hpre => ⟨hcoils pre hpre, fun d e hd _ => by simp [hnone pre hpre d] at hd⟩

/-- A strobe is safe at every point of it: it moves no coil line, and enables no position but its own. -/
theorem throughout_eventSafe_strobe {s : State} (h : BlockInv s) {d : Nat}
    (hd : s.cfg.selector = .oneHot → d < s.cfg.digits) (ms : Nat) :
    Throughout eventSafe (strobeEvents s.cfg d ms) s := by
  have hcoils : Throughout coilsSafe (strobeEvents s.cfg d ms) s := by
    refine Throughout.of_emit (coilsSafe_of_inv h) fun e he t _ ht k => ?_
    cases e with
    | wait ms => exact ht k
    | write l b =>
      obtain ⟨-, hl⟩ := strobeEvents_writesOnly hd ms _ he
      rw [coilDrive_emit_of_selectorLine hl]
      exact ht k
  exact fun pre hpre => ⟨hcoils pre hpre, throughout_atMostOneEnabled_strobeEvents h d ms pre hpre⟩

/-! ## Commands and steps -/

/-- From a state that meets the invariant, `t` meets it and comes from `s` by events that are safe at every point. -/
def StaysSafe (s t : State) : Prop :=
  BlockInv s → BlockInv t ∧ ∃ es, Emits s t es ∧ Throughout eventSafe es s

theorem StaysSafe_refl (s : State) : StaysSafe s s :=
  fun h => ⟨h, [], Emits_refl s, (throughout_nil s).2 (eventSafe_of_inv h)⟩

theorem StaysSafe_trans {s t u : State} (h : StaysSafe s t) (k : StaysSafe t u) : StaysSafe s u := by
  intro hs
  obtain ⟨ht, es, hes, hsafe⟩ := h hs
  obtain ⟨hu, fs, hfs, ksafe⟩ := k ht
  have ⟨hcfg, _, hlevels⟩ := hes
  refine ⟨hu, es ++ fs, Emits_trans hes hfs, hsafe.append (throughout_eventSafe_congr ?_ ?_ ksafe)⟩
  · rw [perform_cfg, hcfg]
  · rw [perform_levels, hlevels]

theorem keptBy_staysSafe (i : Instr) : KeptBy i StaysSafe where
  refl := StaysSafe_refl
  trans := StaysSafe_trans
  wait ms s h := ⟨BlockInv_wait ms s h, _, Emits_perform _ s, by
    simpa using ⟨eventSafe_of_inv h, eventSafe_of_inv (BlockInv_wait ms s h)⟩⟩
  update _ d p s h := by
    have hinv := BlockInv_updateSlot d p s h
    refine ⟨hinv, _, Emits_updateSlot d p s,
      throughout_eventSafe_backend h (isBackendSequence_slotEvents _ _ p) ?_⟩
    have hcoils := coilsSafe_of_inv hinv
    rw [updateSlot_eq] at hcoils
    exact hcoils
  release _ s h := by
    have hinv := BlockInv_releaseAll s h
    refine ⟨hinv, _, Emits_releaseAll s, throughout_eventSafe_backend h ?_ ?_⟩
    · cases s.cfg.backend with
      | direct => exact ⟨_, _, clearEvents_eq⟩
      | serial m => exact ⟨_, rfl⟩
    · have hcoils := coilsSafe_of_inv hinv
      rw [releaseAll_eq] at hcoils
      exact hcoils
  strobed _ d ms s hd h := ⟨BlockInv_strobe d ms s h, _, Emits_strobe d ms s, throughout_eventSafe_strobe h hd ms⟩

/-- Taking a word off the port and answering it are no events. -/
theorem StaysSafe_answered {s u : State} (rest : List Word) (e : Err) (c : Bool) (x : Mask)
    (h : StaysSafe (takeCommand rest s) u) : StaysSafe s (respond e c x u) := by
  intro hs
  obtain ⟨hu, es, hes, hsafe⟩ := h (BlockInv_takeCommand rest s hs)
  exact ⟨BlockInv_respond e c x u hu, es, hes, throughout_eventSafe_congr (s := takeCommand rest s) rfl rfl hsafe⟩

/-- A step keeps the invariant, and every point of its events is safe. -/
theorem step_staysSafe {s t : State} (h : step s = .next t) : StaysSafe s t := by
  rcases step_cases s with ⟨-, hs⟩ | ⟨w, rest, i, -, -, hs⟩ | ⟨w, rest, why, -, -, hs⟩ <;> rw [hs] at h
  · injection h with h
    exact h ▸ StaysSafe_refl s
  · obtain ⟨e, c, x, u, rfl, hu⟩ := (keptBy_staysSafe i).of_exec h
    exact StaysSafe_answered rest e c x hu
  · injection h with h
    exact h ▸ StaysSafe_answered rest .illegal false 0#16 (StaysSafe_refl _)

/-- Settles O41: the units' operations keep the invariant, so every command does, and answering touches none of it. -/
theorem stepKeepsInv : Obligations.StepKeepsInv :=
  fun _ _ hs h => (step_staysSafe h hs).1

/-- Settles O42: the events of a step are those of its units' operations, each safe at every point from a state that
meets the invariant. -/
theorem everyEventSafe : Obligations.EveryEventSafe := by
  intro s t hs h
  obtain ⟨-, es, ⟨-, htrace, -⟩, hsafe⟩ := step_staysSafe h hs
  exact ⟨es, htrace, hsafe⟩

end Sys2Proof.Machine
end

