-- ==== Sys2Proof/Proofs/DigitController.lean ====
section
/-! The commands of the digit controller (spec/41_digit_controller.md): what `ENCODE`, `UPDATE`, `DISPLAY_NUMBER` and
`CLEAR_PINS` answer, and what an update drives: O13, O14, O15, O20, O21, O22, O23, O24, O25. -/

namespace Sys2Proof.Machine

open Sys2Proof.Spec

/-! ## Answers and levels -/

/-- An answer adds its response word and changes nothing else (30_encoding.md R80). -/
theorem respond_eq_answered (e : Err) (c : Bool) (x : Mask) (s : State) :
    respond e c x s = answered s (reply (errCode e).toNat c x) := by
  rw [← responseWord_eq_reply]; rfl

/-- An error is an answer that carries nothing but its code (60_exceptions.md R244). -/
theorem raise_eq_answered (e : Err) (s : State) :
    raise e s = answered s (reply (errCode e).toNat false 0#16) :=
  respond_eq_answered e false 0#16 s

/-- Events whose effect on the levels is known: they set these levels, are recorded, and change nothing else. -/
theorem perform_of_levels {es : List Event} {s : State} {l : Lines} {r : ShiftReg}
    (h : levelsAfter es (s.lines, s.sr) = (l, r)) :
    perform es s = { s with lines := l, sr := r, trace := s.trace ++ es } := by
  rw [perform_eq, perform_lines, perform_sr, h]

/-! ## Value codes and `ENCODE` -/

theorem digitOf_number_of_lt {n : Nat} (h : n < 10) : digitOf (.number n) = some (some ⟨n, h⟩) := dif_pos h

theorem digitOf_number_of_ge {n : Nat} (h : 10 ≤ n) : digitOf (.number n) = none := dif_neg (Nat.not_lt.2 h)

/-- `ENCODE` of a digit value answers its pattern (41_digit_controller.md R123). -/
theorem exec_encode_of_digit {v : Value} {n : Digit} (hv : digitOf v = some n) (s : State) :
    exec (.encode v) s = .next (answered s (reply 0 false ((encodeDigit s.cfg n).setWidth 16))) := by
  simp only [exec, execEncode, hv, respond_eq_answered]
  rfl

/-- Settles O13: the digit value of each value code, or that it has none. -/
theorem encodeResult : Obligations.EncodeResult := by
  intro s
  have hblank : digitOf .blank = some none := rfl
  refine ⟨fun n h => exec_encode_of_digit (digitOf_number_of_lt h) s, exec_encode_of_digit hblank s, fun n h => ?_⟩
  simp only [exec, execEncode, digitOf_number_of_ge h, raise_eq_answered]
  rfl

theorem encodeTable_seven_of_accepted {c : Config} (h : accepted c = true) : c.encodeTable[7] = 0x07#7 := by
  simp only [accepted, Bool.and_eq_true, beq_iff_eq] at h
  exact h.2

/-- Settles O14: entry 7 of the table is checked at construction (70_reset_and_hazards.md R274). -/
theorem encodeSeven : Obligations.EncodeSeven := by
  intro s h
  obtain ⟨hnumber, -, -⟩ := encodeResult s
  rw [hnumber 7 (by decide), encodeTable_seven_of_accepted h]
  rfl

/-! ## The writes of an update -/

/-- The diff is the driven segments (41_digit_controller.md R125). -/
theorem getElem_diffOf (old : Option Pattern) (p : Pattern) (k : Seg) : (diffOf old p)[k] = driven old p k := by
  cases old with
  | none =>
    have hall : ∀ k : Seg, (0x7F#7)[k] = true := by decide
    exact hall k
  | some q => simp [diffOf, driven]

/-- The writes of one segment are those the spec lists (40_segment.md R101, R102). -/
theorem segmentEvents_eq_segmentTrace (old : Option Pattern) (p : Pattern) (k : Seg) :
    (if (diffOf old p)[k] then driveEvents k p[k] else releaseEvents k) = segmentTrace old p k := by
  rw [getElem_diffOf]
  unfold segmentTrace
  cases driven old p k <;> cases p[k] <;> rfl

/-- The writes of an update are those the spec lists, on either back end (41_digit_controller.md R125,
42_serial_expander.md R154). -/
theorem slotEvents_eq_updateTrace (b : Backend) (old : Option Pattern) (p : Pattern) :
    slotEvents b old p = updateTrace b old p := by
  cases b with
  | direct =>
    rw [slotEvents, updateEvents, segments_eq_finRange, updateTrace]
    exact List.flatMap_congr fun k _ => segmentEvents_eq_segmentTrace old p k
  | serial m => exact shiftEvents_eq_shiftTrace _

theorem length_segmentTrace (old : Option Pattern) (p : Pattern) (k : Seg) : (segmentTrace old p k).length = 2 := by
  unfold segmentTrace
  split <;> rfl

theorem length_updateTrace_direct (old : Option Pattern) (p : Pattern) :
    (updateTrace .direct old p).length = 14 := by
  simp [updateTrace, List.length_flatMap, length_segmentTrace]

/-! ## `UPDATE` -/

theorem exec_update_of_lt {s : State} {d : Nat} (hd : d < s.cfg.digits) (p : Pattern) :
    exec (.update d p) s = .next (updateAndRespond d p s) := by
  simp [exec, execUpdate, slotExists, hd]

theorem exec_update_of_ge {s : State} {d : Nat} (hd : s.cfg.digits ≤ d) (p : Pattern) :
    exec (.update d p) s = .next (answered s (reply 2 false 0#16)) := by
  simp only [exec, execUpdate, slotExists, Nat.not_lt.2 hd, decide_false, raise_eq_answered]
  rfl

/-- Everything a successful update can do: the writes of its back end, the write of its slot, its answer
(41_digit_controller.md R124). -/
theorem updateAndRespond_eq (d : Nat) (p : Pattern) (s : State) : updateAndRespond d p s =
    respond .ok (decide (slotAt s d ≠ some p)) (slotData s.cfg.backend (slotAt s d) p)
      (writeSlot d p (perform (updateTrace s.cfg.backend (slotAt s d) p) s)) := by
  rw [updateAndRespond, updateSlot_eq, slotEvents_eq_updateTrace]

/-- Settles O15: the 14 writes leave the levels that the diff gives. (The plain name is the model's own function.) -/
theorem updateDirect_spec : Obligations.UpdateDirect := by
  intro s d p hb hd
  refine ⟨diffOf (slotAt s d) p, getElem_diffOf _ p, ?_, length_updateTrace_direct _ p⟩
  have hlevels := levelsAfter_updateEvents (diffOf (slotAt s d) p) p (s.lines, s.sr)
  have htrace := slotEvents_eq_updateTrace .direct (slotAt s d) p
  rw [exec_update_of_lt hd, updateAndRespond_eq, hb, respond_eq_answered, ← htrace, slotEvents,
    perform_of_levels hlevels]
  rfl

/-- The response of an update: `CHANGED` tells whether the slot did not hold the pattern. -/
theorem updateAndRespond_responses (d : Nat) (p : Pattern) (s : State) : (updateAndRespond d p s).responses =
    s.responses ++ [responseWord .ok (decide (slotAt s d ≠ some p)) (slotData s.cfg.backend (slotAt s d) p)] := by
  rw [updateAndRespond_eq]; simp

theorem updateAndRespond_slots (d : Nat) (p : Pattern) (s : State) :
    (updateAndRespond d p s).slots = s.slots.set d (some p) := updateSlot_slots d p s

theorem slotAt_updateAndRespond {s : State} {d : Nat} (hd : d < s.slots.length) (p : Pattern) :
    slotAt (updateAndRespond d p s) d = some p := by
  simp [slotAt, updateAndRespond_slots, hd]

theorem BlockInv_updateAndRespond {s : State} (h : BlockInv s) (d : Nat) (p : Pattern) :
    BlockInv (updateAndRespond d p s) :=
  BlockInv_respond _ _ _ _ (BlockInv_updateSlot d p s h)

/-- An update leaves the lines and the register of the back end the configuration lacks as they were. -/
theorem updateAndRespond_absentBackend {s : State} (h : BlockInv s) (d : Nat) (p : Pattern) :
    match s.cfg.backend with
    | .direct   => (updateAndRespond d p s).sr = s.sr
    | .serial _ => (updateAndRespond d p s).lines.setL = s.lines.setL ∧
        (updateAndRespond d p s).lines.clrL = s.lines.clrL := by
  obtain ⟨-, -, -, -, -, hclk, hlatch, -⟩ := h
  have hlevels := updateSlot_levels d p s hclk hlatch
  cases hb : s.cfg.backend with
  | direct =>
    simp only [hb] at hlevels
    exact congrArg (·.2) hlevels
  | serial m =>
    simp only [hb] at hlevels
    exact ⟨congrArg (·.1.setL) hlevels, congrArg (·.1.clrL) hlevels⟩

/-- Under the invariant a successful update drives the differing segments to their target and releases the others
(41_digit_controller.md R131). -/
theorem coilDrive_updateAndRespond {s : State} (h : BlockInv s) (d : Nat) (p : Pattern) (k : Seg) :
    coilDrive (updateAndRespond d p s) k = if driven (slotAt s d) p k then (p[k], !p[k]) else (false, false) := by
  rw [← getElem_diffOf]
  exact coilDrive_updateSlot d p s h k

/-- Settles O21: every segment of an unwritten slot is driven. -/
theorem firstWrite : Obligations.FirstWrite := by
  intro s d p hs hd hnone
  refine ⟨_, _, exec_update_of_lt hd p, updateAndRespond_responses d p s, ?_, fun k => ?_⟩
  · rw [changedField_responseWord]; simp [hnone]
  · rw [coilDrive_updateAndRespond hs, hnone]; rfl

/-- Settles O22: the driven segments of a slot that holds `q` are those in which `q` and `p` differ. -/
theorem diffCorrect : Obligations.DiffCorrect := by
  intro s d p hs hd
  refine ⟨_, _, exec_update_of_lt hd p, updateAndRespond_responses d p s,
    fun q hq => ⟨fun k hk => ?_, fun k hk => ?_, ?_⟩, fun hnone => ?_⟩
  · rw [coilDrive_updateAndRespond hs, hq]; exact if_pos (bne_iff_ne.2 hk)
  · rw [coilDrive_updateAndRespond hs, hq]; exact if_neg (by simpa [driven] using hk)
  · rw [changedField_responseWord]; simp [hq]
  · rw [changedField_responseWord]; simp [hnone]

/-! ## An update to the remembered pattern -/

theorem writeSlot_of_remembered {s : State} {d : Nat} {p : Pattern} (h : slotAt s d = some p) :
    writeSlot d p s = s := by
  have hslots : s.slots.set d (some p) = s.slots := by
    have hget : s.slots[d]? = some (some p) := by
      unfold slotAt at h
      cases hx : s.slots[d]? with
      | none => simp [hx] at h
      | some x => simpa [hx] using h
    obtain ⟨hlt, hget⟩ := List.getElem?_eq_some_iff.1 hget
    rw [← hget, List.set_getElem_self]
  rw [writeSlot, hslots]

theorem pulseMask_remembered (m : SrMap) (p : Pattern) : pulseMask m (some p) p = 0#16 := by
  have h := pulseMask_ne_zero m (some p) p
  simpa [changedOf_eq] using h

/-- An update to the pattern its slot holds is `clear_pins`, on either back end: no segment is driven, and the slot
stays (41_digit_controller.md R129, 42_serial_expander.md R157). -/
theorem updateAndRespond_of_remembered {s : State} {d : Nat} {p : Pattern} (h : slotAt s d = some p) :
    updateAndRespond d p s = respond .ok false 0#16 (releaseAll s) := by
  have hevents : updateEvents 0#7 p = clearEvents := by simp [updateEvents, clearEvents]
  have hupdate : updateSlot d p s = (false, 0#16, writeSlot d p (releaseAll s)) := by
    rw [updateSlot_eq, releaseAll_eq, h]
    cases s.cfg.backend with
    | direct => simp [slotData, slotEvents, diffOf_self, hevents]
    | serial m => simp [slotData, slotEvents, pulseMask_remembered]
  have hslot : slotAt (releaseAll s) d = some p := (slotAt_congr (releaseAll_slots s) d).trans h
  rw [updateAndRespond, hupdate, writeSlot_of_remembered hslot]

/-- Whether `clear_pins` releases every coil depends on the configuration and the levels alone. -/
theorem released_releaseAll_congr {s t : State} (hc : t.cfg = s.cfg) (hl : (t.lines, t.sr) = (s.lines, s.sr))
    (h : released (releaseAll s)) : released (releaseAll t) := by
  have hlevels : ((releaseAll t).lines, (releaseAll t).sr) = ((releaseAll s).lines, (releaseAll s).sr) := by
    rw [releaseAll_eq, releaseAll_eq, perform_levels, perform_levels, hc, hl]
  rw [Prod.mk.injEq] at hlevels
  obtain ⟨hlines, hsr⟩ := hlevels
  intro k
  rw [← h k]
  exact coilDrive_congr (by simp [hc]) (by rw [hlines]) (by rw [hlines]) hsr k

/-- Settles O23: the update is `clear_pins`, which neither reads nor moves the display. -/
theorem samePatternNeverRedriven : Obligations.SamePatternNeverRedriven := by
  intro s d p pl hs hd hp
  have hexec := exec_update_of_lt (s := { s with plant := pl }) hd p
  rw [updateAndRespond_of_remembered (s := { s with plant := pl }) hp] at hexec
  have hreleased := released_releaseAll_congr (s := s) (t := { s with plant := pl }) rfl rfl
    (released_releaseAll s hs)
  exact ⟨_, responseWord .ok false 0#16, hexec, by simp, changedField_responseWord .., hreleased, by simp, by simp⟩

/-- Settles O20: the second update finds its pattern remembered, so it is `clear_pins`. -/
theorem updateIdempotent : Obligations.UpdateIdempotent := by
  intro s d p hs hd
  set t := updateAndRespond d p s with ht
  have hinv : BlockInv t := BlockInv_updateAndRespond hs d p
  have hcfg : t.cfg = s.cfg := updateSlot_cfg d p s
  have hfirst : exec (.update d p) s = .next t := exec_update_of_lt hd p
  have hsecond : exec (.update d p) t = .next (respond .ok false 0#16 (releaseAll t)) := by
    have hlen : d < s.slots.length := by obtain ⟨-, hslots, -⟩ := hs; rwa [hslots]
    rw [exec_update_of_lt (hcfg ▸ hd), updateAndRespond_of_remembered (slotAt_updateAndRespond hlen p)]
  refine ⟨t, _, responseWord .ok (decide (slotAt s d ≠ some p)) (slotData s.cfg.backend (slotAt s d) p),
    responseWord .ok false 0#16, hfirst, hsecond, ?_, changedField_responseWord .., changedField_responseWord ..,
    dataField_responseWord .., by simp, released_releaseAll t hinv, ?_⟩
  · simp [ht, updateAndRespond_responses]
  · have habsent := updateAndRespond_absentBackend hs d p
    obtain ⟨-, -, -, -, -, hclk, hlatch, -⟩ := hinv
    have hlevels := releaseAll_levels t hclk hlatch
    rw [hcfg] at hlevels
    rw [← ht] at habsent
    cases hb : s.cfg.backend with
    | direct | serial m =>
      simp only [hb, Prod.mk.injEq] at hlevels habsent
      simp [hlevels, habsent]

/-! ## `DISPLAY_NUMBER` -/

/-- `DISPLAY_NUMBER` of a digit value is `UPDATE` of its pattern, bound check included (41_digit_controller.md
R126). -/
theorem exec_displayNumber_of_digit {v : Value} {n : Digit} (hv : digitOf v = some n) (d : Nat) (s : State) :
    exec (.displayNumber d v) s = exec (.update d (encodeDigit s.cfg n)) s := by
  simp only [exec, execDisplayNumber, execUpdate, hv]

/-- A successful `DISPLAY_NUMBER` of a digit value has the same next state as `UPDATE` of its pattern. -/
theorem exec_displayNumber_of_lt {v : Value} {n : Digit} (hv : digitOf v = some n) {s : State} {d : Nat}
    (hd : d < s.cfg.digits) : ∃ t, exec (.displayNumber d v) s = .next t ∧
      exec (.update d (encodeDigit s.cfg n)) s = .next t ∧ t.slots = s.slots.set d (some (encodeDigit s.cfg n)) := by
  refine ⟨_, ?_, exec_update_of_lt hd _, updateAndRespond_slots _ _ _⟩
  rw [exec_displayNumber_of_digit hv, exec_update_of_lt hd]

theorem exec_displayNumber_of_ge {v : Value} {n : Digit} (hv : digitOf v = some n) {s : State} {d : Nat}
    (hd : s.cfg.digits ≤ d) : exec (.displayNumber d v) s = .next (answered s (reply 2 false 0#16)) := by
  rw [exec_displayNumber_of_digit hv, exec_update_of_ge hd]

/-- Settles O24: a value code with a digit value makes it an `UPDATE`; the others are out of range, whatever the
index. -/
theorem displayNumberResult : Obligations.DisplayNumberResult := by
  intro s d
  have hblank : digitOf .blank = some none := rfl
  refine ⟨fun n h => exec_displayNumber_of_lt (digitOf_number_of_lt h), exec_displayNumber_of_lt hblank,
    fun n h => ?_, fun n h => exec_displayNumber_of_ge (digitOf_number_of_lt h), exec_displayNumber_of_ge hblank⟩
  simp only [exec, execDisplayNumber, digitOf_number_of_ge h, raise_eq_answered]
  rfl

/-! ## `CLEAR_PINS` -/

theorem exec_clearPins (s : State) :
    exec .clearPins s = .next (answered (releaseAll s) (reply 0 false 0#16)) :=
  congrArg Host.Outcome.next (respond_eq_answered .ok false 0#16 (releaseAll s))

/-- The writes of `clear_pins` are those the spec lists, on either back end (41_digit_controller.md R128,
42_serial_expander.md R157). -/
theorem releaseAll_eq_clearTrace (s : State) : releaseAll s = perform (clearTrace s.cfg.backend) s := by
  rw [releaseAll_eq]
  cases s.cfg.backend with
  | direct => rw [← clearEvents_eq_clearTrace]
  | serial m => rw [clearTrace, ← shiftEvents_eq_shiftTrace]

/-- Settles O25: the levels the writes of `clear_pins` leave, on either back end. -/
theorem clearPinsResult : Obligations.ClearPinsResult := by
  intro s
  refine ⟨fun hb => ?_, fun m hb hc hl => ?_⟩
  · have hlevels := levelsAfter_clearEvents (s.lines, s.sr)
    rw [clearEvents_eq_clearTrace] at hlevels
    rw [exec_clearPins, releaseAll_eq_clearTrace, hb, perform_of_levels hlevels, answered]
  · have hlevels : levelsAfter (shiftEvents 0#16) (s.lines, s.sr) =
        ({ s.lines with serData := false }, ⟨0#16, 0#16⟩) := by
      simpa using levelsAfter_shiftEvents 0#16 s.lines s.sr hc hl
    rw [shiftEvents_eq_shiftTrace] at hlevels
    rw [exec_clearPins, releaseAll_eq_clearTrace, hb, clearTrace, perform_of_levels hlevels, answered]

end Sys2Proof.Machine
end

