-- ==== Sys2Proof/Proofs/SerialExpander.lean ====
section
/-! The serial back end: the shift register's edges, what the 50 writes of a serialisation leave, the pulse mask bit
by bit, and `UPDATE` (spec/42_serial_expander.md R153 to R156): O16, O17, O18, O19. -/

namespace Sys2Proof.Machine

open Sys2Proof.Spec

/-! ## The shift register at one event (42_serial_expander.md R156) -/

/-- A rising clock shifts the data line in and leaves the outputs. -/
theorem emit_risingClk_sr {s : State} (h : s.lines.serClk = false) : (emit s (.write .serClk true)).sr =
    { s.sr with stage := s.sr.stage.extractLsb' 0 15 ++ BitVec.ofBool s.lines.serData } := by
  simp [emit, shiftRegAt, h]

/-- A rising latch copies the stages to the outputs. -/
theorem emit_risingLatch_sr {s : State} (h : s.lines.serLatch = false) :
    (emit s (.write .serLatch true)).sr = ⟨s.sr.stage, s.sr.stage⟩ := by
  simp [emit, shiftRegAt, h]

/-- An event that raises neither clock nor latch leaves the register. -/
theorem emit_sr_of_noEdge {s : State} {e : Event} (hclk : ¬ (e = .write .serClk true ∧ s.lines.serClk = false))
    (hlatch : ¬ (e = .write .serLatch true ∧ s.lines.serLatch = false)) : (emit s e).sr = s.sr := by
  cases e with
  | wait ms => rfl
  | write l b =>
    cases l with
    | serClk => exact if_neg (by simpa using hclk)
    | serLatch => exact if_neg (by simpa using hlatch)
    | setL k | clrL k | serData | en d | addr j | enable => rfl

/-- Settles O19: the two edges, bit by bit, and every other event. -/
theorem shiftRegisterEdges : Obligations.ShiftRegisterEdges := by
  intro s e
  refine ⟨?_, ?_, emit_sr_of_noEdge⟩
  · rintro rfl hclk
    rw [emit_risingClk_sr hclk]
    refine ⟨rfl, (getLsbD_shiftIn _ _ 0).trans (if_pos rfl), fun j hj => (getLsbD_shiftIn _ _ (j + 1)).trans ?_⟩
    have hlt : j + 1 < 16 := by omega
    simp [hlt]
  · rintro rfl hlatch
    exact emit_risingLatch_sr hlatch

/-! ## Serialisation (42_serial_expander.md R155) -/

theorem length_shiftTrace (w : Mask) : (shiftTrace w).length = 50 := rfl

/-- The 50 writes from idle clock and latch: the word is in the register, whatever that held. -/
theorem perform_shiftTrace {s : State} (hclk : s.lines.serClk = false) (hlatch : s.lines.serLatch = false)
    (w : Mask) : perform (shiftTrace w) s =
      { s with lines := { s.lines with serData := w.getLsbD 0 }, sr := ⟨w, w⟩, trace := s.trace ++ shiftTrace w } :=
  perform_of_levels (by rw [← shiftEvents_eq_shiftTrace, levelsAfter_shiftEvents w _ _ hclk hlatch])

/-- Settles O18: what the 50 writes leave, and that they are 50. (The plain name is the model's own function.) -/
theorem shiftOutAndLatch_spec : Obligations.ShiftOutAndLatch := by
  intro s w hclk hlatch
  refine ⟨?_, length_shiftTrace w⟩
  rw [shiftOutAndLatch, shiftEvents_eq_shiftTrace, perform_shiftTrace hclk hlatch]

/-! ## The pulse mask (42_serial_expander.md R153) -/

/-- A bit of the mask is set where a driven segment has its target line. -/
theorem getElem_pulseMask_iff (m : SrMap) (old : Option Pattern) (p : Pattern) (i : Fin 16) :
    (pulseMask m old p)[i] = true ↔ ∃ k : Seg, driven old p k = true ∧ i = maskPos m p k := by
  have hbit : (pulseMask m old p)[i] = (pulseMask m old p).getLsbD i.val := rfl
  simp only [hbit, getLsbD_pulseMask, List.any_eq_true, mem_segments, true_and, Bool.and_eq_true,
    decide_eq_true_eq, Fin.val_inj, getElem_diffOf]

/-- An accepted map gives every segment a position of its own (42_serial_expander.md R152). -/
theorem maskPos_injective {m : SrMap} (h : srMapAccepted m = true) (p : Pattern) :
    Function.Injective (maskPos m p) := by
  obtain ⟨hset, hclr, hne⟩ := srMap_distinct h
  intro j k hjk
  unfold maskPos at hjk
  split at hjk <;> split at hjk
  · exact hset j k hjk
  · exact absurd hjk (hne j k)
  · exact absurd hjk.symm (hne k j)
  · exact hclr j k hjk

/-- The set bits of the mask are the target positions of the driven segments, each once. -/
theorem setBits_pulseMask_perm {m : SrMap} (h : srMapAccepted m = true) (old : Option Pattern) (p : Pattern) :
    ((List.finRange 16).filter fun i => (pulseMask m old p)[i]).Perm
      (((List.finRange 7).filter (driven old p)).map (maskPos m p)) := by
  refine (List.perm_ext_iff_of_nodup ((List.nodup_finRange 16).filter _)
    (((List.nodup_finRange 7).filter _).map (maskPos_injective h p))).2 fun i => ?_
  simp only [List.mem_filter, List.mem_map, List.mem_finRange, true_and, getElem_pulseMask_iff, eq_comm (a := i)]

/-- The mask has one bit for every driven segment. -/
theorem length_setBits_pulseMask {m : SrMap} (h : srMapAccepted m = true) (old : Option Pattern) (p : Pattern) :
    ((List.finRange 16).filter fun i => (pulseMask m old p)[i]).length =
      ((List.finRange 7).filter (driven old p)).length := by
  rw [(setBits_pulseMask_perm h old p).length_eq, List.length_map]

/-- No mask pulses both lines of a segment. -/
theorem not_pulseMask_both {m : SrMap} (h : srMapAccepted m = true) (old : Option Pattern) (p : Pattern) (k : Seg) :
    ¬ ((pulseMask m old p)[m.setPos[k]] = true ∧ (pulseMask m old p)[m.clrPos[k]] = true) := by
  rintro ⟨hset, hclr⟩
  have hdrive : (true, true) = if (diffOf old p)[k] then (p[k], !p[k]) else (false, false) :=
    (Prod.ext hset hclr).symm.trans (pulseMask_drive h old p k)
  split at hdrive
  · cases hp : p[k] <;> simp [hp] at hdrive
  · cases hdrive

/-- Settles O17: the bits from the fold that sets them, their number from the distinct positions of the map. -/
theorem pulseMaskBits : Obligations.PulseMaskBits := by
  intro m old p h
  refine ⟨getElem_pulseMask_iff m old p, not_pulseMask_both h old p, ?_, length_setBits_pulseMask h old p, ?_⟩
  · rintro rfl
    exact pulseMask_remembered m p
  · rintro rfl
    rw [length_setBits_pulseMask h]
    rfl

/-! ## `UPDATE` on the serial back end (42_serial_expander.md R154) -/

/-- The mask is not 0 exactly where the slot does not hold the pattern. -/
theorem pulseMask_ne_zero_iff (m : SrMap) (old : Option Pattern) (p : Pattern) :
    pulseMask m old p ≠ 0#16 ↔ old ≠ some p := by
  rw [← bne_iff_ne, pulseMask_ne_zero, changedOf_eq, decide_eq_true_eq]

/-- Settles O16: the mask is shifted out, zero included. (The plain name is the model's own function.) -/
theorem updateSerial_spec : Obligations.UpdateSerial := by
  intro s m d p hb hd hclk hlatch mask
  have hmask : mask ≠ 0#16 ↔ slotAt s d ≠ some p := pulseMask_ne_zero_iff m (slotAt s d) p
  refine ⟨?_, hmask⟩
  rw [exec_update_of_lt hd, updateAndRespond_eq, hb, respond_eq_answered, updateTrace, slotData,
    perform_shiftTrace hclk hlatch, decide_eq_decide.2 hmask]
  rfl

end Sys2Proof.Machine
end

