-- ==== Sys2Proof/Proofs/DigitSelector.lean ====
section
/-! The digit selector (spec/43_selector.md): what `STROBE` leaves of the selector lines in either scheme: O26, O27. -/

namespace Sys2Proof.Machine

open Sys2Proof.Spec

/-! ## Lines that a sequence of events does not write -/

theorem lineLevel_emit_of_not_written {l : Line} {e : Event} (h : writesOnly (· ≠ l) e) (s : State) :
    lineLevel (emit s e).lines l = lineLevel s.lines l := by
  cases e with
  | write l' b => exact lineLevel_putLine_of_ne (Ne.symm h) s.lines b
  | wait ms => rfl

theorem lineLevel_perform_of_not_written {l : Line} {es : List Event} (h : ∀ e ∈ es, writesOnly (· ≠ l) e)
    (s : State) : lineLevel (perform es s).lines l = lineLevel s.lines l := by
  induction es generalizing s with
  | nil => rfl
  | cons e es ih =>
    obtain ⟨he, hes⟩ := List.forall_mem_cons.1 h
    rw [perform_cons, ih hes, lineLevel_emit_of_not_written he]

/-! ## `STROBE` in either scheme (43_selector.md R180) -/

theorem strobeEvents_eq_strobeTrace (c : Config) (d ms : Nat) :
    strobeEvents c d ms = strobeTrace c.selector d ms := by
  unfold strobeEvents strobeTrace
  cases c.selector with
  | oneHot | binary k => rfl

theorem exec_strobe_of_lt {s : State} {d : Nat} (hd : d < selectorBound s.cfg) (ms : Nat) :
    exec (.strobe d ms) s = .next (answered (strobe d ms s) (reply 0 false 0#16)) := by
  have hexists : selectorExists s.cfg d = true := decide_eq_true hd
  simp only [exec, execStrobe, hexists, if_true, respond_eq_answered]
  rfl

/-- Everything a strobe can do: it moves lines and display and is recorded. -/
theorem strobe_eq (d ms : Nat) (s : State) : strobe d ms s =
    { s with lines := (strobe d ms s).lines, plant := (strobe d ms s).plant,
             trace := s.trace ++ strobeTrace s.cfg.selector d ms } := by
  apply state_ext <;> simp [strobe_sr, strobeEvents_eq_strobeTrace]

/-- A strobe of an index at which no digit is wired leaves the display (45_display_plant.md R226). -/
theorem strobe_plant_of_unwired {s : State} {d : Nat} (hd : s.cfg.digits ≤ d) (ms : Nat) :
    (strobe d ms s).plant = s.plant := by
  have hunwired : ¬ d < (perform (strobeEvents s.cfg d ms) s).cfg.digits := by simpa using hd
  rw [strobe, strobePlant, if_neg hunwired, perform_plant]

/-! ## The one-hot scheme (43_selector.md R181) -/

theorem strobe_lines_oneHot {s : State} (hs : s.cfg.selector = .oneHot) (d ms : Nat) :
    (strobe d ms s).lines = putLine s.lines (.en d) false := by
  have hlevels := strobe_levels d ms s (by simp [hs])
  rw [hs] at hlevels
  exact congrArg Prod.fst hlevels

theorem lineLevel_putLine_enLow {x : Lines} (h : ∀ e : Nat, lineLevel x (.en e) = false) (d e : Nat) :
    lineLevel (putLine x (.en d) false) (.en e) = false := by
  by_cases he : e = d
  · subst he
    simp only [lineLevel, putLine, List.getElem?_set_self']
    cases x.en[e]? <;> rfl
  · rw [lineLevel_putLine_of_ne (by simpa using he), h]

theorem strobeTrace_oneHot_writesOnly (d ms : Nat) :
    ∀ ev ∈ strobeTrace .oneHot d ms, writesOnly (· = .en d) ev := by
  simp [strobeTrace, writesOnly]

/-- Within a one-hot strobe from low enables none but its own is high. -/
theorem only_en_high_within_strobe {s : State} (h : ∀ e : Nat, lineLevel s.lines (.en e) = false) {d ms : Nat}
    {pre : List Event} (hpre : pre <+: strobeTrace .oneHot d ms) {e : Nat}
    (he : lineLevel (perform pre s).lines (.en e) = true) : e = d := by
  by_contra hne
  have hother : ∀ l : Line, l = .en d → l ≠ .en e := by
    rintro l rfl hl
    exact hne (Line.en.inj hl).symm
  have hkept : lineLevel (perform pre s).lines (.en e) = lineLevel s.lines (.en e) :=
    lineLevel_perform_of_not_written
      (fun ev hev => writesOnly_mono hother (strobeTrace_oneHot_writesOnly d ms ev (hpre.subset hev))) s
  rw [hkept, h] at he
  cases he

/-- Settles O26: the strobe as a whole, and the enables at each point of it. -/
theorem strobeOneHot : Obligations.StrobeOneHot := by
  intro s d ms hs hd
  have hbound : d < selectorBound s.cfg := by rwa [selectorBound, hs]
  refine ⟨_, exec_strobe_of_lt hbound ms, ?_, fun hlow => ⟨fun e => ?_, fun pre hpre e => ?_⟩⟩
  · rw [strobe_eq, strobe_lines_oneHot hs, hs]
    rfl
  · rw [answered, strobe_lines_oneHot hs]
    exact lineLevel_putLine_enLow hlow d e
  · exact only_en_high_within_strobe hlow hpre

/-! ## The binary scheme (43_selector.md R182) -/

theorem strobe_lines_binary {s : State} {k : Nat} (hs : s.cfg.selector = .binary k)
    (hk : s.lines.addr.length = k) (d ms : Nat) : (strobe d ms s).lines =
      { s.lines with addr := (List.range k).map d.testBit, enable := false } := by
  have hlevels := strobe_levels d ms s (by simp [hs, hk])
  rw [hs] at hlevels
  exact congrArg Prod.fst hlevels

/-- Settles O27: the strobe as a whole, and the display where no digit is wired. -/
theorem strobeBinary : Obligations.StrobeBinary := by
  intro s k d ms hs hk hd
  have hbound : d < selectorBound s.cfg := by rwa [selectorBound, hs]
  refine ⟨_, exec_strobe_of_lt hbound ms, ?_, fun hunwired => strobe_plant_of_unwired hunwired ms⟩
  rw [strobe_eq, strobe_lines_binary hs hk, hs]
  rfl

end Sys2Proof.Machine
end

