-- ==== Sys2Proof/Proofs/RenderDigits.lean ====
section
/-! The decimal digits of a number (spec/44_render.md R201, R202), and the `RENDER` of a number that does not fit:
O30, O31, O34. -/

namespace Sys2Proof.Machine

open Sys2Proof.Spec

/-! ## The digit at a position (44_render.md R201) -/

theorem digitAt_zero (n : Nat) : (digitAt n 0).map Fin.val = some (n % 10) := rfl

/-- A leading zero is blank. -/
theorem digitAt_of_lt {n pos : Nat} (hpos : pos ≠ 0) (h : n < 10 ^ pos) : digitAt n pos = none := by
  simp [digitAt, hpos, Nat.div_eq_of_lt h]

/-- A position that is no leading zero shows its decimal digit. -/
theorem digitAt_of_shown {n pos : Nat} (h : ¬ (pos ≠ 0 ∧ n < 10 ^ pos)) :
    digitAt n pos = some ⟨n / 10 ^ pos % 10, Nat.mod_lt _ (by decide)⟩ := by
  by_cases hpos : pos = 0
  · subst hpos
    simp [digitAt]
  · have hle : 10 ^ pos ≤ n := Nat.not_lt.1 fun hlt => h ⟨hpos, hlt⟩
    have hdiv : n / 10 ^ pos ≠ 0 := (Nat.div_pos hle (by positivity)).ne'
    rw [digitAt, if_neg hpos, if_neg hdiv]

/-- Settles O30: position 0 is always shown, the others from the leading digit of `n` down. -/
theorem digitAtCases : Obligations.DigitAtCases := by
  refine fun n pos => ⟨digitAt_zero n, digitAt_of_lt, fun _ hle => ?_⟩
  rw [digitAt_of_shown fun h => absurd hle (Nat.not_le.2 h.2)]
  rfl

/-! ## The digits spell the number -/

/-- Blank counts as the 0 it stands for. -/
theorem digitAt_getD (n pos : Nat) : ((digitAt n pos).map Fin.val).getD 0 = n / 10 ^ pos % 10 := by
  by_cases h : pos ≠ 0 ∧ n < 10 ^ pos
  · obtain ⟨hpos, hlt⟩ := h
    simp [digitAt_of_lt hpos hlt, Nat.div_eq_of_lt hlt]
  · rw [digitAt_of_shown h]
    rfl

/-- The lowest `N` positions spell `n` modulo `10 ^ N`. -/
theorem sum_digitAt (n N : Nat) :
    ((List.range N).map fun pos => ((digitAt n pos).map Fin.val).getD 0 * 10 ^ pos).sum = n % 10 ^ N := by
  induction N with
  | zero => simp [Nat.mod_one]
  | succ N ih =>
    rw [List.range_succ, List.map_append, List.sum_append, ih, List.map_singleton, List.sum_singleton, digitAt_getD,
      Nat.mod_pow_succ, Nat.mul_comm]

/-- Settles O31: a number that fits is its own remainder. -/
theorem digitsSpellTheNumber : Obligations.DigitsSpellTheNumber := by
  intro n N _ hn
  rw [sum_digitAt, Nat.mod_eq_of_lt hn]

/-- The pattern of a position is the one the spec gives it (44_render.md R200, R201). -/
theorem positionPattern_eq_renderPattern (c : Config) (n pos : Nat) :
    positionPattern c n pos = renderPattern c n pos := by
  unfold positionPattern renderPattern
  by_cases h : pos ≠ 0 ∧ n < 10 ^ pos
  · rw [if_pos h, digitAt_of_lt h.1 h.2]
    rfl
  · rw [if_neg h, digitAt_of_shown h]
    rfl

/-! ## A number that does not fit (44_render.md R202) -/

/-- A render value of five digits fits a unit of five positions. -/
theorem lt_pow_of_wellFormed {n N : Nat} (hN : 5 ≤ N) (h : (Instr.render n).wellFormed = true) : n < 10 ^ N := by
  have hn : n < 65536 := of_decide_eq_true h
  have hpow : 10 ^ 5 ≤ 10 ^ N := Nat.pow_le_pow_right (by decide) hN
  omega

/-- Settles O34: the range check comes before everything else of a pass. -/
theorem renderOutOfRange : Obligations.RenderOutOfRange := by
  refine fun s n => ⟨fun h => ?_, lt_pow_of_wellFormed⟩
  have hfits : renderFits s.cfg n = false := decide_eq_false (Nat.not_lt.2 h)
  simp only [exec, execRender, hfits, raise_eq_answered]
  rfl

end Sys2Proof.Machine
end

