-- ==== Sys2Proof/Proofs/RenderPass.lean ====
section
/-! The render pass as a whole, field by field, from a state that meets the invariant (spec/44_render.md R200, R203,
R205): O32, O33, O35. -/

namespace Sys2Proof.Machine

open Sys2Proof.Spec

/-! ## The positions of a pass in the spec's terms -/

theorem exec_render_of_lt {s : State} {n : Nat} (hn : n < 10 ^ s.cfg.digits) :
    exec (.render n) s = .next (renderPass n s) :=
  if_pos (decide_eq_true hn)

theorem positionChanges_eq_renderChanges (s : State) (n : Nat) : positionChanges s n = renderChanges s n := by
  funext pos
  rw [positionChanges, renderChanges, positionPattern_eq_renderPattern]

/-- The events of the positions and of the end of a pass are those the spec lists (44_render.md R200, R203). -/
theorem renderTrace_eq (s : State) (n : Nat) : renderTrace s n =
    (List.range s.cfg.digits).flatMap (positionEvents s n) ++ clearTrace s.cfg.backend ++ [.wait s.cfg.refreshMs] := by
  unfold renderTrace positionEvents
  simp only [slotEvents_eq_updateTrace, strobeEvents_eq_strobeTrace, positionPattern_eq_renderPattern,
    positionChanges_eq_renderChanges]

/-- What a strobed update makes of a segment (45_display_plant.md R222). -/
theorem positionOptical_eq (s : State) (n pos : Nat) (k : Seg) : positionOptical s n pos k =
    if driven (slotAt s pos) (renderPattern s.cfg n pos) k then
      if s.cfg.tFlipMs ≤ s.cfg.holdMs.toNat then opticalOf (renderPattern s.cfg n pos)[k] else .unknown
    else plantAt s pos k := by
  rw [positionOptical, getElem_diffOf, positionPattern_eq_renderPattern]

/-- A pass strobes nothing where every slot holds its pattern. -/
theorem renderStrobes_eq_nil_iff (s : State) (n : Nat) :
    renderStrobes s n = [] ↔ ∀ pos < s.cfg.digits, slotAt s pos = some (renderPattern s.cfg n pos) := by
  simp [renderStrobes, renderChanges]

theorem any_renderChanges (s : State) (n : Nat) :
    (List.range s.cfg.digits).any (renderChanges s n) = decide (renderStrobes s n ≠ []) := by
  rw [Bool.eq_iff_iff, decide_eq_true_eq, List.any_eq_true, renderStrobes, Ne, List.filter_eq_nil_iff]
  simp

/-- The address lines after the last strobe of a pass: only a binary selector has any. -/
theorem addrAfter_eq (c : Config) (a : List Bool) (last : Option Nat) : addrAfter c a last =
    match c.selector, last with
    | .binary k, some d => (List.range k).map d.testBit
    | _, _              => a := by
  unfold addrAfter
  cases last <;> cases c.selector <;> rfl

/-! ## A list of slots or of display rows from its entries -/

/-- The slots are what is read of them. -/
theorem slots_eq_of_slotAt {s : State} {f : Nat → Pattern}
    (h : ∀ d < s.slots.length, slotAt s d = some (f d)) : s.slots = (List.range s.slots.length).map (some ∘ f) := by
  apply List.ext_getElem (by simp)
  intro d hd _
  have hread : slotAt s d = s.slots[d] := by simp [slotAt, hd]
  rw [← hread, h d hd]
  simp

/-- The display is what is seen of it. -/
theorem plant_eq_of_plantAt {s t : State} (hlen : t.plant.length = s.plant.length)
    (h : ∀ d < s.plant.length, ∀ k, plantAt t d k = plantAt s d k) : t.plant = s.plant := by
  apply List.ext_getElem hlen
  intro d ht hs
  apply Vector.ext
  intro k hk
  simpa [plantAt, ht, hs] using h d hs ⟨k, hk⟩

/-! ## The levels after `clear_pins` under the invariant -/

/-- The invariant fixes every line but the address lines once the coils are released, and the register of the absent
back end: two blocks of one configuration come out of `clear_pins` with the same levels. -/
theorem releaseAll_levels_of_inv {s t : State} (hs : BlockInv s) (ht : BlockInv t) (hc : t.cfg = s.cfg) :
    ((releaseAll t).lines, (releaseAll t).sr) =
      ({ coilsReleased s with addr := t.lines.addr },
        match s.cfg.backend with
        | .direct   => s.sr
        | .serial _ => ⟨0#16, 0#16⟩) := by
  obtain ⟨-, -, -, hen, henable, hclk, hlatch, -, habsent, -⟩ := hs
  obtain ⟨-, -, -, hen', henable', hclk', hlatch', -, habsent', -⟩ := ht
  rw [releaseAll_levels t hclk' hlatch', hc]
  rw [hc] at hen' habsent'
  have hen : t.lines.en = s.lines.en := hen'.trans hen.symm
  unfold coilsReleased
  cases hb : s.cfg.backend with
  | direct | serial m =>
    simp only [hb] at habsent habsent'
    simp [hen, henable, henable', hclk, hclk', hlatch, hlatch', habsent, habsent']

/-! ## The pass, field by field -/

theorem renderPass_cfg (n : Nat) (s : State) : (renderPass n s).cfg = s.cfg := by
  simp [renderPass, renderPositions_eq, passPrefix_cfg]

section
variable {s : State} (h : BlockInv s) (n : Nat)
include h

theorem BlockInv_renderPass : BlockInv (renderPass n s) := by
  obtain ⟨hinv, -⟩ := passPrefix_spec n s h _ le_rfl
  exact BlockInv_respond _ _ _ _ (BlockInv_wait _ _ (BlockInv_releaseAll _ hinv))

theorem renderPass_commands : (renderPass n s).commands = s.commands := by
  obtain ⟨-, -, hcommands, -⟩ := passPrefix_spec n s h _ le_rfl
  simp [renderPass, renderPositions_eq, hcommands]

/-- The answer tells whether a position was strobed, and which (30_encoding.md R82). -/
theorem renderPass_responses : (renderPass n s).responses =
    s.responses ++ [responseWord .ok (decide (renderStrobes s n ≠ [])) (renderPositions n s).strobed] := by
  obtain ⟨-, -, -, hresponses, -, -, -, -, -, hany⟩ := passPrefix_spec n s h _ le_rfl
  rw [positionChanges_eq_renderChanges, any_renderChanges] at hany
  simp [renderPass, renderPositions_eq, hresponses, hany]

/-- Every position below 16 that is strobed has its bit in the answer (30_encoding.md R82). -/
theorem getLsbD_strobed (pos : Nat) : (renderPositions n s).strobed.getLsbD pos =
    (decide (pos < 16) && decide (pos < s.cfg.digits) && renderChanges s n pos) := by
  obtain ⟨-, -, -, -, -, -, -, -, hstrobed, -⟩ := passPrefix_spec n s h _ le_rfl
  rw [renderPositions_eq, hstrobed, positionChanges_eq_renderChanges]

/-- A pass leaves every slot at the pattern of its position (44_render.md R200). -/
theorem slotAt_renderPass {pos : Nat} (hpos : pos < s.cfg.digits) :
    slotAt (renderPass n s) pos = some (renderPattern s.cfg n pos) := by
  obtain ⟨-, -, -, -, hslots, -⟩ := passPrefix_spec n s h _ le_rfl
  have hsame : (renderPass n s).slots = (passPrefix n s s.cfg.digits).state.slots := by
    simp [renderPass, renderPositions_eq]
  rw [slotAt_congr hsame, hslots, if_pos hpos, positionPattern_eq_renderPattern]

theorem renderPass_slots :
    (renderPass n s).slots = (List.range s.cfg.digits).map fun pos => some (renderPattern s.cfg n pos) := by
  obtain ⟨-, hlen, -⟩ := BlockInv_renderPass h n
  rw [renderPass_cfg] at hlen
  have hslots := slots_eq_of_slotAt (s := renderPass n s) fun d hd => slotAt_renderPass h n (hlen ▸ hd)
  rwa [hlen] at hslots

/-- The trace of a pass (44_render.md R200, R203). -/
theorem renderPass_trace : (renderPass n s).trace = s.trace ++ renderTrace s n := by
  obtain ⟨-, hcfg, -, -, -, htrace, -⟩ := passPrefix_spec n s h _ le_rfl
  simp [renderPass, renderPositions_eq, releaseAll_eq_clearTrace, hcfg, htrace, renderTrace_eq]

/-- A pass ends with the coils released and the index strobed last on the address lines (44_render.md R200,
43_selector.md R182). -/
theorem renderPass_levels : ((renderPass n s).lines, (renderPass n s).sr) =
    ({ coilsReleased s with addr := addrAfter s.cfg s.lines.addr (renderStrobes s n).getLast? },
      match s.cfg.backend with
      | .direct   => s.sr
      | .serial _ => ⟨0#16, 0#16⟩) := by
  obtain ⟨hinv, hcfg, -, -, -, -, haddr, -⟩ := passPrefix_spec n s h _ le_rfl
  have hlevels := releaseAll_levels_of_inv h hinv hcfg
  rw [haddr, positionChanges_eq_renderChanges] at hlevels
  exact hlevels

/-- The display after a pass (44_render.md R200, 45_display_plant.md R222). -/
theorem plantAt_renderPass {d : Nat} (hd : d < s.cfg.digits) (k : Seg) : plantAt (renderPass n s) d k =
    if driven (slotAt s d) (renderPattern s.cfg n d) k then
      if s.cfg.tFlipMs ≤ s.cfg.holdMs.toNat then opticalOf (renderPattern s.cfg n d)[k] else .unknown
    else plantAt s d k := by
  obtain ⟨-, -, -, -, -, -, -, hplant, -⟩ := passPrefix_spec n s h _ le_rfl
  have hsame : plantAt (renderPass n s) d k = plantAt (passPrefix n s s.cfg.digits).state d k := by
    simp [plantAt, renderPass, renderPositions_eq]
  rw [hsame, hplant, if_pos hd, positionOptical_eq]

theorem renderPass_plant_length : (renderPass n s).plant.length = s.plant.length := by
  have ⟨_, _, hlen, _⟩ := h
  obtain ⟨-, -, hlen', -⟩ := BlockInv_renderPass h n
  rw [hlen', hlen, renderPass_cfg]

end

/-- Settles O32: the pass, field by field. -/
theorem renderResult : Obligations.RenderResult := by
  intro s n h hn
  refine ⟨renderPass n s, (renderPositions n s).strobed, exec_render_of_lt hn, getLsbD_strobed h n, ?_⟩
  have hlevels := renderPass_levels h n
  rw [addrAfter_eq, Prod.mk.injEq] at hlevels
  obtain ⟨hlines, hsr⟩ := hlevels
  have hresponses := renderPass_responses h n
  rw [responseWord_eq_reply] at hresponses
  exact state_ext (renderPass_cfg n s) (renderPass_slots h n) hlines hsr rfl (renderPass_trace h n)
    (renderPass_commands h n) hresponses

/-- Settles O33: each position's strobe shows what its update drives, and no other position touches its row. -/
theorem renderDisplay : Obligations.RenderDisplay :=
  fun _ n h hn => ⟨_, exec_render_of_lt hn, renderPass_plant_length h n, fun _ k hd => plantAt_renderPass h n hd k⟩

/-! ## A pass repeated, and a pass after reset (44_render.md R205) -/

section
variable {s : State} (h : BlockInv s) {n : Nat}
include h

/-- A pass in which every slot holds its pattern answers 0. -/
theorem renderPass_responses_of_noStrobes (hnone : renderStrobes s n = []) :
    (renderPass n s).responses = s.responses ++ [0x00000000#32] := by
  have hdata : (renderPositions n s).strobed = 0#16 := by
    refine BitVec.eq_of_getLsbD_eq fun pos _ => ?_
    by_cases hpos : pos < s.cfg.digits
    · simp [getLsbD_strobed h, renderChanges, (renderStrobes_eq_nil_iff s n).1 hnone pos hpos]
    · simp [getLsbD_strobed h, hpos]
  rw [renderPass_responses h, hdata, hnone]
  rfl

/-- A segment of a slot that holds its pattern is not driven, so a pass without strobes leaves the display. -/
theorem renderPass_plant_of_noStrobes (hnone : renderStrobes s n = []) : (renderPass n s).plant = s.plant := by
  have ⟨_, _, hlen, _⟩ := h
  refine plant_eq_of_plantAt (renderPass_plant_length h n) fun d hd k => ?_
  rw [hlen] at hd
  rw [plantAt_renderPass h n hd, (renderStrobes_eq_nil_iff s n).1 hnone d hd]
  simp [driven]

/-- After a pass every slot holds its pattern. -/
theorem renderStrobes_renderPass : renderStrobes (renderPass n s) n = [] := by
  rw [renderStrobes_eq_nil_iff, renderPass_cfg]
  exact fun pos hpos => slotAt_renderPass h n hpos

/-- The slots after a second pass are those after the first. -/
theorem renderPass_renderPass_slots : (renderPass n (renderPass n s)).slots = (renderPass n s).slots := by
  rw [renderPass_slots (BlockInv_renderPass h n), renderPass_slots h, renderPass_cfg]

end

theorem renderChanges_resetOf (c : Config) (n pos : Nat) : renderChanges (State.resetOf c) n pos = true := by
  simp [renderChanges, slotAt_resetOf]

/-- No slot is written at reset, so the first pass strobes every position. -/
theorem renderStrobes_resetOf (c : Config) (n : Nat) : renderStrobes (State.resetOf c) n = List.range c.digits :=
  List.filter_eq_self.2 fun pos _ => renderChanges_resetOf c n pos

theorem one_le_digits_of_accepted {c : Config} (h : accepted c = true) : 1 ≤ c.digits := by
  simp only [accepted, Bool.and_eq_true, decide_eq_true_eq] at h
  obtain ⟨⟨⟨⟨hle, -⟩, -⟩, -⟩, -⟩ := h
  exact hle

/-- Settles O35: after a pass every slot holds its pattern, and after reset none does. -/
theorem renderTwice : Obligations.RenderTwice := by
  refine fun n => ⟨fun s h hn => ?_, fun c hc hn => ?_⟩
  · have hinv := BlockInv_renderPass h n
    have hnone := renderStrobes_renderPass h (n := n)
    have hsecond : exec (.render n) (renderPass n s) = .next (renderPass n (renderPass n s)) :=
      exec_render_of_lt (by rwa [renderPass_cfg])
    exact ⟨_, _, exec_render_of_lt hn, hsecond, renderPass_responses_of_noStrobes hinv hnone,
      renderPass_renderPass_slots h, renderPass_plant_of_noStrobes hinv hnone, renderPass_trace hinv n, hnone⟩
  · have hinv := BlockInv_resetOf hc
    have htrace : (renderPass n (State.resetOf c)).trace = resetTrace c ++ renderTrace (State.resetOf c) n := by
      rw [renderPass_trace hinv, ← resetEvents_eq_resetTrace]
      rfl
    have hsome : List.range c.digits ≠ [] := by
      simpa using Nat.one_le_iff_ne_zero.1 (one_le_digits_of_accepted hc)
    refine ⟨_, _, exec_render_of_lt hn, renderPass_responses hinv n, ?_, htrace, renderStrobes_resetOf c n,
      fun pos hpos => ?_⟩
    · rw [changedField_responseWord, renderStrobes_resetOf]
      exact decide_eq_true hsome
    · have hcfg : (State.resetOf c).cfg = c := rfl
      rw [dataField_responseWord, getLsbD_strobed hinv, renderChanges_resetOf]
      simp [hpos, hcfg]

end Sys2Proof.Machine
end

