-- ==== Sys2Proof/Proofs/PlantDisplay.lean ====
section
/-! The driven display (spec/45_display_plant.md): what a strobe makes of it, which lines its coils hang on, which
commands change it, and that no command reads it: O28, O29, O48, O49. -/

namespace Sys2Proof.Machine

open Sys2Proof.Spec

/-! ## The coil drive (45_display_plant.md R221) -/

/-- Settles O29: the drive is read off the levels of the direct lines, or off the register's outputs. -/
theorem coilDriveLines : Obligations.CoilDriveLines := by
  refine fun s k => ⟨fun hb => coilDrive_direct hb k, fun m hb => ?_⟩
  unfold coilDrive
  rw [hb]
  rfl

/-! ## The display after a strobe (45_display_plant.md R222, R226) -/

/-- Settles O28: a strobe flips its own row by the coil drive, and an index without a wired digit flips none. -/
theorem strobeDisplay : Obligations.StrobeDisplay := by
  intro s d ms hlen hd
  have hplant := plantAt_strobe d ms s hlen
  refine ⟨_, exec_strobe_of_lt hd ms, strobe_plant_length d ms s, fun e k he => ?_,
    fun hunwired => strobe_plant_of_unwired hunwired ms, fun hwired k => ?_⟩
  · exact (hplant e k).trans (if_neg fun h => he h.1)
  · have hflip : plantAt (answered (strobe d ms s) (reply 0 false 0#16)) d k =
        flipSegment (coilDrive s k) (decide (s.cfg.tFlipMs ≤ ms)) (plantAt s d k) :=
      (hplant d k).trans (if_pos ⟨rfl, hwired⟩)
    rw [hflip]
    refine ⟨fun hk => ?_, fun hk => ?_, fun hk => ?_, fun hk => ?_⟩ <;> simp [hk, flipSegment]

/-! ## Which commands change the display (45_display_plant.md R220, R224) -/

/-- What is seen of the display depends on the display alone. -/
theorem plantAt_congr {s t : State} (h : t.plant = s.plant) (d : Nat) (k : Seg) : plantAt t d k = plantAt s d k := by
  simp only [plantAt, h]

/-- A strobe leaves the rows of the other digits. -/
theorem plantAt_strobe_of_ne {d e : Nat} (h : e ≠ d) (ms : Nat) (s : State) (k : Seg) :
    plantAt (strobe d ms s) e k = plantAt s e k := by
  unfold strobe strobePlant
  split <;> simp [plantAt, List.getElem?_set_ne (Ne.symm h)]

/-- The operations of a command that does not strobe leave the display. -/
theorem keptBy_plant {i : Instr} (hi : strobes i = false) : KeptBy i fun s t => t.plant = s.plant where
  refl _ := rfl
  trans h k := k.trans h
  wait _ _ := rfl
  update _ := updateSlot_plant
  release _ := releaseAll_plant
  strobed h := by simp [hi] at h

/-- Settles O48: only a strobe or a pass strobes, and a strobe leaves the other rows. -/
theorem displayChangedOnlyByStrobes : Obligations.DisplayChangedOnlyByStrobes := by
  intro i s t d k hexec hne
  have hstrobes : strobes i = true := by
    by_contra hi
    obtain ⟨_, _, _, u, rfl, hu⟩ := (keptBy_plant (Bool.eq_false_iff.2 hi)).of_exec hexec
    exact hne (plantAt_congr hu d k)
  cases i with
  | strobe e ms =>
    refine .inl ⟨ms, ?_⟩
    by_contra hde
    have hed : d ≠ e := fun h => hde (by rw [h])
    rcases exec_cases hexec with ⟨-, _, rfl⟩ | ⟨-, rfl⟩
    · exact hne rfl
    · exact hne (plantAt_strobe_of_ne hed ms s k)
  | render n => exact .inr ⟨n, rfl⟩
  | encode v | update e p | displayNumber e v | clearPins => cases hstrobes

/-! ## The display is write-only (45_display_plant.md R220) -/

/-- The state with another display put in place. -/
def setPlant (pl : List (Vector Optical 7)) (s : State) : State := { s with plant := pl }

/-- The pass with another display put in place. -/
def Pass.setPlant (pl : List (Vector Optical 7)) (a : Pass) : Pass := { a with state := Machine.setPlant pl a.state }

theorem perform_setPlant (pl es s) : perform es (setPlant pl s) = setPlant pl (perform es s) := by
  apply state_ext <;> simp [setPlant, perform_lines, perform_sr]

theorem releaseAll_setPlant (pl s) : releaseAll (setPlant pl s) = setPlant pl (releaseAll s) := by
  rw [releaseAll_eq, releaseAll_eq, perform_setPlant]
  rfl

theorem updateSlot_setPlant (d p pl s) : updateSlot d p (setPlant pl s) =
    ((updateSlot d p s).1, (updateSlot d p s).2.1, setPlant pl (updateSlot d p s).2.2) := by
  simp only [updateSlot_eq, show (setPlant pl s).cfg = s.cfg from rfl,
    show slotAt (setPlant pl s) d = slotAt s d from rfl, perform_setPlant]
  rfl

/-- A strobe makes the same of everything but the display. -/
theorem strobe_setPlant (d ms pl s) : ∃ pl', strobe d ms (setPlant pl s) = setPlant pl' (strobe d ms s) := by
  have hcfg : (setPlant pl s).cfg = s.cfg := rfl
  refine ⟨(strobe d ms (setPlant pl s)).plant, ?_⟩
  unfold strobe
  rw [strobePlant_eq, strobePlant_eq d ms (perform _ s), hcfg, perform_setPlant]
  rfl

/-- One position of a pass makes the same of everything but the display. -/
theorem renderPosition_setPlant (n pos pl a) :
    ∃ pl', renderPosition n (Pass.setPlant pl a) pos = (renderPosition n a pos).setPlant pl' := by
  have hstate : (Pass.setPlant pl a).state = setPlant pl a.state := rfl
  have hcfg : (setPlant pl a.state).cfg = a.state.cfg := rfl
  unfold renderPosition
  rw [hstate, hcfg, updateSlot_setPlant]
  generalize updateSlot pos (encodeDigit a.state.cfg (digitAt n pos)) a.state = r
  obtain ⟨changed, data, u⟩ := r
  cases changed with
  | false => exact ⟨pl, rfl⟩
  | true =>
    obtain ⟨pl', hstrobe⟩ := strobe_setPlant pos u.cfg.holdMs.toNat pl u
    exact ⟨pl', congrArg (Pass.mk · (setBit a.strobed pos true) true) hstrobe⟩

theorem passPrefix_setPlant (n pl s m) : ∃ pl', passPrefix n (setPlant pl s) m = (passPrefix n s m).setPlant pl' := by
  induction m with
  | zero => exact ⟨pl, rfl⟩
  | succ m ih =>
    obtain ⟨pl₁, hprefix⟩ := ih
    obtain ⟨pl₂, hposition⟩ := renderPosition_setPlant n m pl₁ (passPrefix n s m)
    exact ⟨pl₂, by rw [passPrefix_succ, passPrefix_succ, hprefix, hposition]⟩

/-- A command that meets no error makes the same of everything but the display. -/
theorem succeed_setPlant (i pl s) : ∃ pl', succeed i (setPlant pl s) = setPlant pl' (succeed i s) := by
  cases i with
  | encode v => exact ⟨pl, rfl⟩
  | update d p | displayNumber d v => exact ⟨pl, by simp only [succeed, commandResult, updateSlot_setPlant]; rfl⟩
  | clearPins => exact ⟨pl, by simp only [succeed, commandResult, releaseAll_setPlant]; rfl⟩
  | strobe d ms =>
    obtain ⟨pl', hstrobe⟩ := strobe_setPlant d ms pl s
    refine ⟨pl', ?_⟩
    simp only [succeed, commandResult, hstrobe]
    rfl
  | render n =>
    obtain ⟨pl', hpass⟩ := passPrefix_setPlant n pl s s.cfg.digits
    have hpositions : renderPositions n (setPlant pl s) = (renderPositions n s).setPlant pl' := hpass
    refine ⟨pl', ?_⟩
    simp only [succeed, commandResult, hpositions, Pass.setPlant, releaseAll_setPlant]
    rfl

/-- Settles O49: a command meets the same error whatever the display, and without one does the same but to it. -/
theorem displayIsWriteOnly : Obligations.DisplayIsWriteOnly := by
  intro i s t pl hexec
  by_cases hok : errorOf s.cfg i = 0#4
  · obtain ⟨pl', hsucceed⟩ := succeed_setPlant i pl s
    rw [exec_of_ok hok] at hexec
    injection hexec with ht
    exact ⟨pl', ht ▸ (exec_of_ok (s := setPlant pl s) hok).trans (congrArg _ hsucceed)⟩
  · obtain ⟨e, -, herror⟩ := exec_of_error hok
    rw [herror s rfl] at hexec
    injection hexec with ht
    exact ⟨pl, ht ▸ herror (setPlant pl s) rfl⟩

end Sys2Proof.Machine
end

