-- ==== Sys2Proof/Proofs/ConsistencyContract.lean ====
section
/-! The consistency contract between slots and display (spec/45_display_plant.md R227): every command and every word
that keeps the protocol keeps it, so it holds after every sequence from reset; the rule's own sentence does not: O50,
O51, O52, O53. -/

namespace Sys2Proof.Machine

open Sys2Proof.Spec

/-! ## What the ledger says a segment shows -/

section
variable {g g' : Ledger} {s s' : State} {d : Nat} {k : Seg}

theorem strobedTo_of_none (h : g.pending = none) : strobedTo g s d = slotAt s d :=
  strobedTo_of_not_pending s (by simp [h])

theorem displayed_congr (hpattern : strobedTo g' s' d = strobedTo g s d)
    (hblurred : (d, k) ∈ g'.blurred ↔ (d, k) ∈ g.blurred) : displayed g' s' d k = displayed g s d k := by
  simp only [displayed, hpattern, hblurred]

theorem displayed_of_none (h : strobedTo g s d = none) : displayed g s d k = .unknown := by
  simp only [displayed, h]

theorem displayed_of_some {p : Pattern} (h : strobedTo g s d = some p) :
    displayed g s d k = if (d, k) ∈ g.blurred then .unknown else opticalOf p[k] := by
  simp only [displayed, h]

end

/-- Which digit waits for its strobe after an update: the updated one, if its slot changed. -/
theorem pending_ledgerAfterUpdate_iff (s : State) (g : Ledger) (d : Nat) (p : Pattern) (e : Nat) (q : Option Pattern) :
    (ledgerAfterUpdate s g d p).pending = some (e, q) ↔ slotAt s d ≠ some p ∧ d = e ∧ slotAt s d = q := by
  by_cases h : slotAt s d = some p <;> simp [ledgerAfterUpdate, h]

/-- A strobe under the drive to level `b` shows `b`, or nothing definite if the hold is short
(45_display_plant.md R222, R223). -/
theorem flipSegment_drive (b held : Bool) (old : Optical) :
    flipSegment (b, !b) held old = if held then opticalOf b else .unknown := by
  cases b <;> rfl

/-- A segment that an update does not drive already has its level in the pattern the slot holds. -/
theorem driven_eq_false_iff (old : Option Pattern) (p : Pattern) (k : Seg) :
    driven old p k = false ↔ ∃ r, old = some r ∧ r[k] = p[k] := by
  cases old <;> simp [driven]

/-! ## The protocol of each command -/

/-- (P1) lets a pending update be followed by no command that drives or releases segments. -/
theorem pending_eq_none_of_keepsP1 {s : State} {g : Ledger} {i : Instr} (hi : drivesCoils i = true)
    (h : keepsP1 s g i = true) : g.pending = none := by
  cases hg : g.pending with
  | none => rfl
  | some x => cases i <;> simp_all [keepsP1, drivesCoils]

/-- (P1) lets a pending update be followed by a strobe of its own digit alone. -/
theorem strobed_eq_of_keepsP1 {s : State} {g : Ledger} {e ms d : Nat} {q : Option Pattern}
    (hg : g.pending = some (d, q)) (h : keepsP1 s g (.strobe e ms) = true) : e = d := by
  simp only [keepsP1, hg, Bool.and_eq_true, beq_iff_eq] at h
  exact h.1

/-- (P2) of a strobe of a wired digit under a drive: the digit is the owner of the drive. -/
theorem owner_of_keepsP2 {s : State} {g : Ledger} {e ms : Nat} {k : Seg} (he : e < s.cfg.digits)
    (hk : coilDrive s k ≠ (false, false)) (h : keepsP2 s g (.strobe e ms) = true) : g.owner = some e := by
  have hdriven : segments.all (fun k => !coilDriven s k) = false := by
    rw [List.all_eq_false]
    exact ⟨k, mem_segments k, by simpa [coilDriven] using hk⟩
  simpa [keepsP2, Nat.not_le.2 he, hdriven] using h

theorem lt_digits_of_update {c : Config} {d : Nat} {p : Pattern} (h : errorOf c (.update d p) = 0#4) :
    d < c.digits := by
  by_contra hd
  simp [errorOf, Nat.not_lt.1 hd] at h

theorem lt_digits_of_displayNumber {c : Config} {d : Nat} {v : Value} (h : errorOf c (.displayNumber d v) = 0#4) :
    d < c.digits := by
  by_contra hd
  cases hv : valueOutOfRange v <;> simp [errorOf, hv, Nat.not_lt.1 hd] at h

/-- An error leaves the ledger (45_display_plant.md R227). -/
theorem ledgerAfter_of_error {s : State} {i : Instr} (h : errorOf s.cfg i ≠ 0#4) (g : Ledger) :
    ledgerAfter s g i = g :=
  if_pos h

/-- The ledger after a strobe that meets no error: no digit waits any more. -/
def ledgerAfterStrobe (s : State) (g : Ledger) (e ms : Nat) : Ledger :=
  { g with pending := none, blurred := blurredAfterStrobe s g e ms }

@[simp] theorem ledgerAfterStrobe_pending (s g e ms) : (ledgerAfterStrobe s g e ms).pending = none := rfl
@[simp] theorem ledgerAfterStrobe_blurred (s g e ms) :
    (ledgerAfterStrobe s g e ms).blurred = blurredAfterStrobe s g e ms := rfl

/-! ## Each command keeps the contract -/

section
variable {g : Ledger} {s : State} (h : Contract g s)
include h

/-- `clear_pins` moves no slot and no segment, and leaves the drive without an owner. -/
theorem Contract_clearPins (hpending : g.pending = none) :
    Contract { g with owner := none, pending := none } (releaseAll s) := by
  obtain ⟨hinv, hshows, -⟩ := h
  refine ⟨BlockInv_releaseAll s hinv, fun d k hd => ?_, by simp, by simp, by simp⟩
  rw [releaseAll_cfg] at hd
  have hpattern : strobedTo { g with owner := none, pending := none } (releaseAll s) d = strobedTo g s d := by
    rw [strobedTo_of_none rfl, strobedTo_of_none hpending, slotAt_congr (releaseAll_slots s)]
  rw [plantAt_congr (releaseAll_plant s), hshows d k hd, displayed_congr hpattern Iff.rfl]

/-- An update leaves every digit at what it was last strobed to. -/
theorem strobedTo_updateAndRespond (hpending : g.pending = none) {d : Nat} (hd : d < s.cfg.digits) (p : Pattern)
    (e : Nat) : strobedTo (ledgerAfterUpdate s g d p) (updateAndRespond d p s) e = strobedTo g s e := by
  obtain ⟨⟨-, hslots, -⟩, -⟩ := h
  have hnew : slotAt (updateAndRespond d p s) d = some p := slotAt_updateAndRespond (hslots ▸ hd) p
  have hother : d ≠ e → slotAt (updateAndRespond d p s) e = slotAt s e := fun he => slotAt_updateSlot_of_ne he p s
  rw [strobedTo_of_none hpending]
  by_cases hwait : d = e ∧ slotAt s d ≠ some p
  · obtain ⟨rfl, hne⟩ := hwait
    exact strobedTo_of_pending _ ((pending_ledgerAfterUpdate_iff ..).2 ⟨hne, rfl, rfl⟩)
  · rw [strobedTo_of_not_pending _ fun q hq => ?_]
    · by_cases he : d = e
      · subst he
        rw [hnew, not_not.1 fun hne => hwait ⟨rfl, hne⟩]
      · exact hother he
    · obtain ⟨hne, he, -⟩ := (pending_ledgerAfterUpdate_iff ..).1 hq
      exact hwait ⟨he, hne⟩

/-- An update moves no segment, and its drive is that of its own digit (41_digit_controller.md R125). -/
theorem Contract_update (hpending : g.pending = none) {d : Nat} (hd : d < s.cfg.digits) (p : Pattern) :
    Contract (ledgerAfterUpdate s g d p) (updateAndRespond d p s) := by
  have ⟨hinv, hshows, _⟩ := h
  have hcfg : (updateAndRespond d p s).cfg = s.cfg := updateSlot_cfg d p s
  have hslot : slotAt (updateAndRespond d p s) d = some p := by
    obtain ⟨-, hslots, -⟩ := hinv
    exact slotAt_updateAndRespond (hslots ▸ hd) p
  refine ⟨BlockInv_updateAndRespond hinv d p, fun e k he => ?_, fun e q hq => ?_, fun e he => ?_,
    fun e q p' hq hp' k hk => ?_⟩
  · have hplant : (updateAndRespond d p s).plant = s.plant := updateSlot_plant d p s
    rw [plantAt_congr hplant, hshows e k (hcfg ▸ he),
      displayed_congr (strobedTo_updateAndRespond h hpending hd p e) Iff.rfl]
  · obtain ⟨-, rfl, -⟩ := (pending_ledgerAfterUpdate_iff ..).1 hq
    rfl
  · obtain rfl : d = e := Option.some.inj he
    refine ⟨hcfg ▸ hd, p, hslot, fun k => ?_⟩
    rw [coilDrive_updateAndRespond hinv]
    cases driven (slotAt s d) p k <;> simp
  · obtain ⟨-, rfl, rfl⟩ := (pending_ledgerAfterUpdate_iff ..).1 hq
    obtain rfl : p = p' := Option.some.inj (hslot.symm.trans hp')
    rw [← driven_eq_false_iff]
    by_contra hdriven
    rw [coilDrive_updateAndRespond hinv, if_pos (by simpa using hdriven)] at hk
    cases hp : p[k] <;> simp [hp] at hk

/-- The pending digit shows its slot already where the drive releases it: there the update changed nothing. -/
theorem displayed_of_released {k : Seg} (hk : coilDrive s k = (false, false)) (d : Nat) :
    displayed { g with pending := none } s d k = displayed g s d k := by
  obtain ⟨-, -, howner, hdrive, hleft⟩ := h
  by_cases hd : ∃ q, g.pending = some (d, q)
  · obtain ⟨q, hq⟩ := hd
    obtain ⟨-, p, hp, -⟩ := hdrive d (howner d q hq)
    obtain ⟨r, rfl, hr⟩ := hleft d q p hq hp k hk
    rw [displayed_of_some ((strobedTo_of_none rfl).trans hp), displayed_of_some (strobedTo_of_pending s hq), hr]
  · refine displayed_congr ?_ Iff.rfl
    rw [strobedTo_of_none rfl, strobedTo_of_not_pending s (not_exists.1 hd)]

/-- A strobe makes the released segments of its digit show the slot, since they do already, and the driven ones too,
unless the hold is short (45_display_plant.md R222, R223). -/
theorem plantAt_strobe_self {e ms : Nat} (he : e < s.cfg.digits) (hP2 : keepsP2 s g (.strobe e ms) = true) (k : Seg) :
    plantAt (strobe e ms s) e k = displayed (ledgerAfterStrobe s g e ms) (strobe e ms s) e k := by
  have ⟨⟨_, _, hlen, _⟩, hshows, _, hdrive, _⟩ := h
  have hblurred := mem_blurredAfterStrobe s g e ms e k
  have hslot : slotAt (strobe e ms s) e = slotAt s e := slotAt_congr (strobe_slots e ms s) e
  rw [plantAt_strobe e ms s hlen, if_pos ⟨rfl, he⟩]
  by_cases hk : coilDrive s k = (false, false)
  · have hpattern : strobedTo (ledgerAfterStrobe s g e ms) (strobe e ms s) e =
        strobedTo { g with pending := none } s e := by
      rw [strobedTo_of_none rfl, strobedTo_of_none rfl, hslot]
    rw [if_neg (by simp [(coilDriven_eq_false s k).2 hk])] at hblurred
    rw [displayed_congr hpattern hblurred, displayed_of_released h hk, ← hshows e k he, hk]
    rfl
  · obtain ⟨-, p, hp, hcoil⟩ := hdrive e (owner_of_keepsP2 he hk hP2)
    have hdriven : coilDriven s k = true := by simpa [coilDriven] using hk
    rw [if_pos ⟨he, rfl, hdriven⟩] at hblurred
    rw [(hcoil k).resolve_left hk, flipSegment_drive,
      displayed_of_some ((strobedTo_of_none rfl).trans (hslot.trans hp))]
    by_cases hheld : s.cfg.tFlipMs ≤ ms <;> simp [hblurred, hheld]

/-- A strobe that keeps (P1) and (P2) changes its own digit alone, and moves no slot and no coil line. -/
theorem Contract_strobe {e ms : Nat} (hP1 : keepsP1 s g (.strobe e ms) = true)
    (hP2 : keepsP2 s g (.strobe e ms) = true) :
    Contract (ledgerAfterStrobe s g e ms) (strobe e ms s) := by
  have ⟨hinv, hshows, _, hdrive, _⟩ := h
  refine ⟨BlockInv_strobe e ms s hinv, fun d k hd => ?_, by simp, fun d hd => ?_, by simp⟩
  · rw [strobe_cfg] at hd
    by_cases hde : d = e
    · subst hde
      exact plantAt_strobe_self h hd hP2 k
    · have hnot : ∀ q, g.pending ≠ some (d, q) := fun q hq => hde (strobed_eq_of_keepsP1 hq hP1).symm
      have hblurred := mem_blurredAfterStrobe s g e ms d k
      rw [if_neg fun hb => hde hb.2.1] at hblurred
      have hpattern : strobedTo (ledgerAfterStrobe s g e ms) (strobe e ms s) d =
          strobedTo g s d := by
        rw [strobedTo_of_none rfl, strobedTo_of_not_pending s hnot, slotAt_congr (strobe_slots e ms s)]
      rw [plantAt_strobe_of_ne hde, hshows d k hd, displayed_congr hpattern hblurred]
  · obtain ⟨hlt, p, hp, hcoil⟩ := hdrive d hd
    refine ⟨by rwa [strobe_cfg], p, (slotAt_congr (strobe_slots e ms s) d).trans hp, fun k => ?_⟩
    rw [coilDrive_strobe]
    exact hcoil k

/-- A pass with a full hold makes the segments it drives show their slot; the others do already (44_render.md R200). -/
theorem Contract_render (hpending : g.pending = none) {n : Nat} (hheld : s.cfg.tFlipMs ≤ s.cfg.holdMs.toNat) :
    Contract ⟨none, none, blurredAfterRender s g n⟩ (renderPass n s) := by
  have ⟨hinv, hshows, _⟩ := h
  refine ⟨BlockInv_renderPass hinv n, fun d k hd => ?_, by simp, by simp, by simp⟩
  rw [renderPass_cfg] at hd
  have hblurred := mem_blurredAfterRender s g n d k
  have hpattern : encodeDigit s.cfg (digitAt n d) = renderPattern s.cfg n d :=
    positionPattern_eq_renderPattern s.cfg n d
  rw [getElem_diffOf, hpattern] at hblurred
  rw [plantAt_renderPass hinv n hd, if_pos hheld,
    displayed_of_some ((strobedTo_of_none rfl).trans (slotAt_renderPass hinv n hd))]
  cases hdriven : driven (slotAt s d) (renderPattern s.cfg n d) k with
  | true => simp [hblurred, hdriven]
  | false =>
    obtain ⟨r, hr, hrk⟩ := (driven_eq_false_iff ..).1 hdriven
    rw [← hrk, hshows d k hd, displayed_of_some ((strobedTo_of_none hpending).trans hr)]
    simp [hblurred, hdriven]

/-- A command that meets no error and keeps the protocol keeps the contract. -/
theorem Contract_succeed {i : Instr} (hok : errorOf s.cfg i = 0#4) (hkeeps : keepsProtocol s g i = true) :
    Contract (ledgerAfter s g i) (succeed i s) := by
  obtain ⟨hP1, hP2, hP3⟩ := (keepsProtocol_iff hok).1 hkeeps
  unfold ledgerAfter
  rw [if_neg (not_not_intro hok)]
  cases i with
  | encode v => exact h
  | update d p => exact Contract_update h (pending_eq_none_of_keepsP1 rfl hP1) (lt_digits_of_update hok) p
  | displayNumber d v =>
    exact Contract_update h (pending_eq_none_of_keepsP1 rfl hP1) (lt_digits_of_displayNumber hok) _
  | clearPins => exact Contract_clearPins h (pending_eq_none_of_keepsP1 rfl hP1)
  | strobe e ms => exact Contract_strobe h hP1 hP2
  | render n => exact Contract_render h (pending_eq_none_of_keepsP1 rfl hP1) (of_decide_eq_true hP3)

/-- A command that keeps the protocol keeps the contract; one that meets an error changes nothing. -/
theorem Contract_exec {t : State} {i : Instr} (hkeeps : keepsProtocol s g i = true) (hexec : exec i s = .next t) :
    Contract (ledgerAfter s g i) t := by
  rcases exec_cases hexec with ⟨herror, e, rfl⟩ | ⟨hok, rfl⟩
  · rw [ledgerAfter_of_error herror]
    exact h
  · exact Contract_succeed h hok hkeeps

end

/-- Settles O50: a step is its command, or answers an illegal word, which touches nothing the contract reads. -/
theorem contractStep : Obligations.ContractStep := by
  refine ⟨fun g s t i h hkeeps hexec => Contract_exec h hkeeps hexec, fun g s t w rest hc h hkeeps hstep => ?_⟩
  have htaken : Contract g (takeCommand rest s) := h
  unfold keepsProtocolWord at hkeeps
  unfold ledgerAfterWord
  cases hd : decode w with
  | command i =>
    simp only [hd] at hkeeps
    rw [stepRunsCommand s w rest i hc hd] at hstep
    exact Contract_exec htaken hkeeps hstep
  | illegal why =>
    simp only [step, hc, hd] at hstep
    injection hstep with hstep
    exact hstep ▸ htaken

/-! ## Sequences of command words -/

/-- What one word kept by the protocol does in a sequence. -/
theorem runProtocol_cons {w : Word} {ws : List Word} {g : Ledger} {s : State} {r : Ledger × State}
    (h : runProtocol (w :: ws) g s = some r) : keepsProtocolWord s g w = true ∧
      ∃ t, step (present w s) = .next t ∧ runProtocol ws (ledgerAfterWord s g w) t = some r := by
  cases hkeeps : keepsProtocolWord s g w with
  | false => simp [runProtocol, hkeeps] at h
  | true =>
    cases hstep : step (present w s) with
    | next t =>
      simp only [runProtocol, hkeeps, hstep, if_true] at h
      exact ⟨rfl, t, rfl, h⟩
    | fault r | refused r => simp [runProtocol, hkeeps, hstep] at h

/-- What every word kept by the protocol keeps holds after the sequence. -/
theorem runProtocol_keeps {P : Ledger → State → Prop} {ws : List Word} {g g' : Ledger} {s s' : State}
    (hword : ∀ w ∈ ws, ∀ g s t, P g s → keepsProtocolWord s g w = true → step (present w s) = .next t →
      P (ledgerAfterWord s g w) t)
    (hrun : runProtocol ws g s = some (g', s')) (h : P g s) : P g' s' := by
  induction ws generalizing g s with
  | nil =>
    cases hrun
    exact h
  | cons w ws ih =>
    obtain ⟨hkeeps, t, hstep, hrest⟩ := runProtocol_cons hrun
    obtain ⟨hw, hws⟩ := List.forall_mem_cons.1 hword
    exact ih hws hrest (hw g s t h hkeeps hstep)

theorem runProtocol_cfg {ws : List Word} {g g' : Ledger} {s s' : State} (hrun : runProtocol ws g s = some (g', s')) :
    s'.cfg = s.cfg := by
  refine runProtocol_keeps (P := fun _ t => t.cfg = s.cfg) (fun w _ g u t hu _ hstep => ?_) hrun rfl
  obtain ⟨hcfg, -⟩ := stepExtends _ _ hstep
  exact hcfg.trans hu

/-- The contract holds at reset: no slot is written, and every segment is indeterminate (45_display_plant.md R225). -/
theorem Contract_resetOf {c : Config} (hc : accepted c = true) : Contract Ledger.empty (State.resetOf c) := by
  refine ⟨BlockInv_resetOf hc, fun d k _ => ?_, by simp [Ledger.empty], by simp [Ledger.empty], by simp [Ledger.empty]⟩
  rw [plantAt_resetOf, displayed_of_none ((strobedTo_of_none rfl).trans (slotAt_resetOf c d))]

/-- The contract holds after every sequence from reset that keeps the protocol. -/
theorem Contract_runProtocol {c : Config} (hc : accepted c = true) {ws : List Word} {g : Ledger} {s : State}
    (hrun : runProtocol ws Ledger.empty (State.resetOf c) = some (g, s)) : Contract g s :=
  runProtocol_keeps (P := Contract)
    (fun w _ g s t h hkeeps hstep => contractStep.2 g (present w s) t w s.commands rfl h hkeeps hstep)
    hrun (Contract_resetOf hc)

theorem lt_length_of_slotAt {s : State} {d : Nat} {p : Pattern} (h : slotAt s d = some p) : d < s.slots.length := by
  by_contra hd
  simp [slotAt, List.getElem?_eq_none (Nat.not_lt.1 hd)] at h

/-- A segment that no short hold has blurred shows its slot, unless its digit waits for its strobe. -/
theorem plantAt_of_contract {g : Ledger} {s : State} (h : Contract g s) {d : Nat} {p : Pattern} {k : Seg}
    (hp : slotAt s d = some p) (hpending : ∀ q, g.pending ≠ some (d, q)) (hblurred : (d, k) ∉ g.blurred) :
    plantAt s d k = opticalOf p[k] := by
  obtain ⟨⟨-, hslots, -⟩, hshows, -⟩ := h
  rw [hshows d k (hslots ▸ lt_length_of_slotAt hp),
    displayed_of_some ((strobedTo_of_not_pending s hpending).trans hp), if_neg hblurred]

/-- Settles O51: the contract, read segment by segment. -/
theorem contractFromReset : Obligations.ContractFromReset := by
  intro c ws g s hc hrun
  have h := Contract_runProtocol hc hrun
  have ⟨_, hshows, _⟩ := h
  rw [runProtocol_cfg hrun] at hshows
  exact ⟨hshows, fun d p k hp hpending hblurred => plantAt_of_contract h hp hpending hblurred⟩

/-! ## Full holds (70_reset_and_hazards.md R277) -/

/-- A command whose strobe, if it is one, holds for the flip time blurs no segment. -/
theorem ledgerAfter_blurred_of_fullHold {g : Ledger} {s : State} {i : Instr} (hg : g.blurred = [])
    (hheld : ∀ d ms, i = .strobe d ms → s.cfg.tFlipMs ≤ ms) : (ledgerAfter s g i).blurred = [] := by
  unfold ledgerAfter
  split
  · exact hg
  · cases i with
    | encode v | update d p | displayNumber d v | clearPins => exact hg
    | strobe d ms => simp [blurredAfterStrobe, hg, hheld d ms rfl]
    | render n => simp [blurredAfterRender, hg]

/-- With full holds no segment is ever blurred. -/
theorem runProtocol_blurred_of_fullHolds {ws : List Word} {g g' : Ledger} {s s' : State}
    (hheld : ∀ w ∈ ws, ∀ d ms : Nat, decode w = .command (.strobe d ms) → s.cfg.tFlipMs ≤ ms)
    (hrun : runProtocol ws g s = some (g', s')) (hg : g.blurred = []) : g'.blurred = [] := by
  refine (runProtocol_keeps (P := fun f t => t.cfg = s.cfg ∧ f.blurred = []) ?_ hrun ⟨rfl, hg⟩).2
  rintro w hw f u t ⟨hcfg, hf⟩ - hstep
  obtain ⟨hcfg', -⟩ := stepExtends _ _ hstep
  refine ⟨hcfg'.trans hcfg, ?_⟩
  unfold ledgerAfterWord
  cases hd : decode w with
  | command i =>
    refine ledgerAfter_blurred_of_fullHold hf fun d ms hi => ?_
    rw [hcfg]
    exact hheld w hw d ms (hi ▸ hd)
  | illegal why => exact hf

/-- Settles O52: the contract with no segment blurred. -/
theorem contractWithFullHolds : Obligations.ContractWithFullHolds := by
  intro c ws g s hc hrun hheld
  have h := Contract_runProtocol hc hrun
  have hblurred : ∀ x, x ∉ g.blurred := by simp [runProtocol_blurred_of_fullHolds hheld hrun rfl]
  have hshown : ∀ d : Nat, (∀ q, g.pending ≠ some (d, q)) → shown s d :=
    fun d hpending p hp k => plantAt_of_contract h hp hpending (hblurred _)
  refine ⟨hshown, fun d r hr k => ?_, fun hnone d => hshown d (by simp [hnone])⟩
  obtain ⟨-, hshows, howner, hdrive, -⟩ := h
  obtain ⟨hd, -⟩ := hdrive d (howner d _ hr)
  rw [hshows d k hd, displayed_of_some (strobedTo_of_pending s hr), if_neg (hblurred _)]

/-! ## The sentence of the rule as worded (log entry 8) -/

/-- `DISP 0, 8; STROBE 0, 100; STROBE 0, 10` with a flip time of 50 ms: the second strobe is short, and (P1) and (P2)
allow it. -/
def shortRestrobe : List Word := [0x30000008#32, 0x50000064#32, 0x5000000A#32]

/-- The sequence keeps the protocol, slot 0 remembers an 8, and segment A of digit 0 shows nothing definite. -/
theorem runProtocol_shortRestrobe : ∃ g s,
    runProtocol shortRestrobe Ledger.empty (State.resetOf Config.standard) = some (g, s) ∧
      g.pending = none ∧ slotAt s 0 = some 0x7F#7 ∧ plantAt s 0 0 = .unknown := by
  have hrun : (runProtocol shortRestrobe Ledger.empty (State.resetOf Config.standard)).map
      (fun r => (r.1.pending, slotAt r.2 0, plantAt r.2 0 0)) = some (none, some 0x7F#7, .unknown) := by decide
  obtain ⟨⟨g, s⟩, hgs, hr⟩ := Option.map_eq_some_iff.1 hrun
  simp only [Prod.mk.injEq] at hr
  exact ⟨g, s, hgs, hr⟩

/-- Refutes O53: a second strobe of the driven digit with a hold below the flip time blurs what the slot remembers. -/
theorem not_contractAsWritten : ¬ Obligations.ContractAsWritten := by
  intro h
  obtain ⟨g, s, hrun, hpending, hslot, hplant⟩ := runProtocol_shortRestrobe
  have hshows := h Config.standard shortRestrobe [] g g s s (by decide) hrun rfl hpending 0 0x7F#7 hslot 0
  rw [hplant] at hshows
  exact absurd hshows (by decide)

end Sys2Proof.Machine
end

