-- ==== Sys2Proof/Proofs/Errors.lean ====
section
/-! Errors (spec/60_exceptions.md): which error each command meets, which one a word reports when several apply, and
that an errored word leaves nothing but its response: O10, O11, O12. -/

namespace Sys2Proof.Machine

open Sys2Proof.Spec

/-! ## The error of a command (60_exceptions.md R241, R242, R244) -/

/-- The list of responses tells which response was added last. -/
theorem response_eq_of_answered {s : State} {q r : Word} (h : (answered s q).responses = s.responses ++ [r]) :
    q = r := by
  simpa [answered] using h

theorem errField_reply (e : Err) (c : Bool) (x : Mask) : errField (reply (errCode e).toNat c x) = errCode e := by
  rw [← responseWord_eq_reply, errField_responseWord]

/-- What a command does before it answers adds no response of its own. -/
theorem succeed_responses {i : Instr} {s : State} (h : errorOf s.cfg i = 0#4) : (succeed i s).responses =
    s.responses ++ [responseWord .ok (commandResult i s).1 (commandResult i s).2.1] := by
  rw [succeed, respond_responses, ((keptBy_extends i).of_commandResult h).responses]

/-- Settles O12: a command without an error does its work and answers that, and one with an error only answers it. -/
theorem errorsOfEachCommand : Obligations.ErrorsOfEachCommand := by
  intro i s
  by_cases h : errorOf s.cfg i = 0#4
  · refine ⟨_, _, exec_of_ok h, succeed_responses h, ?_, fun he => absurd h he⟩
    rw [errField_responseWord, h]; rfl
  · obtain ⟨e, he, hexec⟩ := exec_of_error h
    have hnext := hexec s rfl
    rw [raise_eq_answered] at hnext
    exact ⟨_, _, hnext, rfl, (errField_reply e _ _).trans he, fun _ => by rw [he]⟩

/-! ## The error of a word (60_exceptions.md R243, R245) -/

/-- The error code a word meets in a configuration: illegality before the command's own error. -/
def errorOfWord (c : Config) (w : Word) : BitVec 4 :=
  if IllegalWord w then 0xF#4 else errorOf c (commandAt w)

/-- A word is answered with the error it meets, and one that meets an error leaves nothing else. -/
theorem step_reports {s : State} {w : Word} {rest : List Word} (hc : s.commands = w :: rest) :
    ∃ (t : State) (r : Word), step s = .next t ∧ t.responses = s.responses ++ [r] ∧
      errField r = errorOfWord s.cfg w ∧ (errField r ≠ 0#4 → t = answered (takeCommand rest s) r) := by
  unfold errorOfWord
  by_cases h : IllegalWord w
  · have hnext := step_of_illegal hc h
    rw [raise_eq_answered] at hnext
    exact ⟨_, _, hnext, rfl, (errField_reply .illegal _ _).trans (if_pos h).symm, fun _ => rfl⟩
  · obtain ⟨t, r, hexec, hresp, herr, hframe⟩ := errorsOfEachCommand (commandAt w) (takeCommand rest s)
    have hs : step s = exec (commandAt w) (takeCommand rest s) := stepRunsCommand s w rest _ hc (decode_of_legal h)
    refine ⟨t, r, hs.trans hexec, hresp, by rw [herr, if_neg h]; rfl, fun hr => ?_⟩
    obtain rfl := hframe (herr ▸ hr)
    rw [response_eq_of_answered hresp]

/-- Settles O11: the step reports what the word meets, and the response is the one that was added. -/
theorem noPartialEffect : Obligations.NoPartialEffect := by
  intro s t w rest r hc hstep hresp herr
  obtain ⟨t', r', hstep', hresp', -, hframe⟩ := step_reports hc
  obtain rfl : t = t' := by simpa using hstep.symm.trans hstep'
  obtain rfl : r = r' := by simpa using hresp.symm.trans hresp'
  exact hframe herr

/-- A value code without the blank bit is its number, one with it is blank (30_encoding.md R74). -/
theorem valueOutOfRange_valueAt (x : Nat) : valueOutOfRange (valueAt x) = true ↔ x < 2 ^ 15 ∧ 10 ≤ x := by
  unfold valueAt
  split_ifs with h
  · simp only [valueOutOfRange, Bool.false_eq_true, false_iff]; omega
  · simp only [valueOutOfRange, decide_eq_true_eq]; omega

/-- The error of `STROBE`, by the spec's own bound (43_selector.md R180). -/
theorem errorOf_strobe_eq_selectorBound (c : Config) (d ms : Nat) :
    errorOf c (.strobe d ms) = if selectorBound c ≤ d then 2#4 else 0#4 := by
  unfold errorOf selectorBound
  cases c.selector with
  | oneHot => rfl
  | binary k => rfl

/-- What a legal word meets, by its fields: out of range before an index that does not exist. -/
theorem errorOf_commandAt {w : Word} (h : ¬ IllegalWord w) (c : Config) : errorOf c (commandAt w) =
    if outOfRangeWord c w then 0x1#4 else if doesNotExistWord c w then 0x2#4 else 0x0#4 := by
  obtain ⟨-, ⟨hop, -, -⟩ | ⟨hop, -⟩ | ⟨hop, -⟩ | ⟨hop, -, -⟩ | hop | ⟨hop, -⟩⟩ := (not_illegalWord_iff w).1 h
  · simp [commandAt, hop, errorOf, valueOutOfRange_valueAt, outOfRangeWord, doesNotExistWord]
  · simp [commandAt, hop, errorOf, outOfRangeWord, doesNotExistWord]
  · simp [commandAt, hop, errorOf, valueOutOfRange_valueAt, outOfRangeWord, doesNotExistWord]
  · simp [commandAt, hop, errorOf, outOfRangeWord, doesNotExistWord]
  · simp [commandAt, hop, errorOf_strobe_eq_selectorBound, outOfRangeWord, doesNotExistWord]
  · simp [commandAt, hop, errorOf, outOfRangeWord, doesNotExistWord]

/-- Settles O10: the word reports what it meets, and only `DISPLAY_NUMBER` has both a value code and a digit. -/
theorem errorPriority : Obligations.ErrorPriority := by
  intro s w rest hc
  obtain ⟨t, r, hstep, hresp, herr, -⟩ := step_reports hc
  have hlegal (h : ¬ IllegalWord w) := herr.trans ((if_neg h).trans (errorOf_commandAt h s.cfg))
  refine ⟨t, r, hstep, hresp, fun h => ?_, fun h hout => ?_, fun h hout hdne => ?_, fun h hout hdne => ?_,
    fun hout hdne => ?_⟩
  · rw [herr, errorOfWord, if_pos h]
  · rw [hlegal h, if_pos hout]
  · rw [hlegal h, if_neg hout, if_pos hdne]
  · rw [hlegal h, if_neg hout, if_neg hdne]
  · rcases hout with ⟨h1 | h3, -⟩ | ⟨h6, -⟩
    · rcases hdne with ⟨h, -⟩ | ⟨h, -⟩ <;> omega
    · exact h3
    · rcases hdne with ⟨h, -⟩ | ⟨h, -⟩ <;> omega

end Sys2Proof.Machine
end

