-- ==== Sys2Proof/Proofs/Construction.lean ====
section
/-! The reset sequence from arbitrary levels, and which configurations give a block (spec/70_reset_and_hazards.md):
O36, O39. -/

namespace Sys2Proof.Machine

open Sys2Proof.Spec

/-! ## The reset sequence (70_reset_and_hazards.md R271) -/

/-- The line writes of the reset sequence make the levels of reset: the selector's part and then the back end's part
lower what the configuration owns, and what it lacks was low before. -/
theorem levelsAfter_resetEvents_eq_low {c : Config} {l : Lines} {r : ShiftReg}
    (hen : l.en.length = (match c.selector with | .oneHot => c.digits | .binary _ => 0))
    (haddr : l.addr.length = (match c.selector with | .oneHot => 0 | .binary k => k))
    (henable : c.selector = .oneHot → l.enable = false)
    (habsent : match c.backend with
      | .direct   => l.serData = false ∧ l.serClk = false ∧ l.serLatch = false ∧ r = ⟨0#16, 0#16⟩
      | .serial _ => l.setL = 0#7 ∧ l.clrL = 0#7) :
    levelsAfter (resetEvents c) (l, r) = (Lines.low c, ⟨0#16, 0#16⟩) := by
  rw [resetEvents, levelsAfter_append, levelsAfter_resetSelector c (l, r) hen haddr henable]
  cases hb : c.backend with
  | direct =>
    rw [hb] at habsent
    obtain ⟨hdata, hclk, hlatch, hr⟩ := habsent
    simp only [levelsAfter_resetDirect, hdata, hclk, hlatch, hr]; rfl
  | serial m =>
    rw [hb] at habsent
    obtain ⟨hset, hclr⟩ := habsent
    simp only [levelsAfter_resetSerial, hset, hclr]; rfl

/-- Settles O36: the levels are those of reset, the trace holds the events and nothing else, and the sequence sets
every other element itself. -/
theorem resetSequence_spec : Obligations.ResetSequence := by
  intro s hen haddr henable habsent
  have hlevels := levelsAfter_resetEvents_eq_low hen haddr henable habsent
  have hreset : resetSequence s = State.resetOf s.cfg := by
    unfold resetSequence
    rw [perform_eq, perform_lines, perform_sr, hlevels]; rfl
  exact ⟨hreset, hreset ▸ resetEvents_eq_resetTrace s.cfg⟩

/-! ## The construction requirements (70_reset_and_hazards.md R274) -/

/-- A vector whose entries differ pairwise lists none twice. -/
theorem nodup_toList_of_ne {α : Type} {v : Vector α 7} (h : ∀ j k : Seg, j ≠ k → v[j] ≠ v[k]) : v.toList.Nodup := by
  refine List.pairwise_iff_getElem.2 fun i j hi hj hij => ?_
  have hi7 : i < 7 := by simpa using hi
  have hj7 : j < 7 := by simpa using hj
  simpa using h ⟨i, hi7⟩ ⟨j, hj7⟩ (by simpa using hij.ne)

/-- The test of `SR_MAP` is the three fixed entries and 14 distinct positions (42_serial_expander.md R151, R152). -/
theorem srMapAccepted_iff (m : SrMap) : srMapAccepted m = true ↔
    m.setPos[0] = 13 ∧ m.clrPos[0] = 15 ∧ m.setPos[1] = 9 ∧
    (∀ j k : Seg, j ≠ k → m.setPos[j] ≠ m.setPos[k] ∧ m.clrPos[j] ≠ m.clrPos[k]) ∧
    ∀ j k : Seg, m.setPos[j] ≠ m.clrPos[k] := by
  constructor
  · intro h
    obtain ⟨hset, hclr, hcross⟩ := srMap_distinct h
    simp only [srMapAccepted, Bool.and_eq_true, beq_iff_eq] at h
    obtain ⟨⟨⟨h13, h15⟩, h9⟩, -⟩ := h
    exact ⟨h13, h15, h9, fun j k hjk => ⟨mt (hset j k) hjk, mt (hclr j k) hjk⟩, hcross⟩
  · rintro ⟨h13, h15, h9, hpairs, hcross⟩
    have hnodup : (m.setPos.toList ++ m.clrPos.toList).Nodup := by
      refine List.nodup_append.2 ⟨nodup_toList_of_ne fun j k hjk => (hpairs j k hjk).1,
        nodup_toList_of_ne fun j k hjk => (hpairs j k hjk).2, fun a ha b hb => ?_⟩
      obtain ⟨j, hj, rfl⟩ := Vector.mem_iff_getElem.1 (Vector.mem_toList_iff.1 ha)
      obtain ⟨k, hk, rfl⟩ := Vector.mem_iff_getElem.1 (Vector.mem_toList_iff.1 hb)
      exact hcross ⟨j, hj⟩ ⟨k, hk⟩
    simp [srMapAccepted, h13, h15, h9, hnodup]

/-- The test at construction is the conjunction of the requirements. -/
theorem accepted_iff_acceptable (c : Config) : accepted c = true ↔ acceptable c := by
  unfold accepted acceptable
  cases c.selector with
  | oneHot | binary k => cases c.backend with
    | direct | serial m => simp [and_assoc, srMapAccepted_iff]

/-- Settles O39: construction is the test, and the test is the requirements. -/
theorem constructionAccepts : Obligations.ConstructionAccepts := by
  intro c
  rw [← accepted_iff_acceptable]
  exact ⟨fun h => if_pos h, fun h => if_neg h⟩

end Sys2Proof.Machine
end
